-- ==== Sys2Proof/Word.lean ====
section
/-! DEFINITION. The word types of the CHIP-8 core (spec/00_scope.md R7 and R9, spec/30_encoding.md R71). -/

namespace Sys2Proof

/-- An 8-bit value: a memory cell, a V register, a timer, the constant `nn` (R7). -/
abbrev Byte := BitVec 8

/-- A 16-bit value: an instruction word, I, pc, a stack entry (R7). -/
abbrev Word := BitVec 16

/-- A 4-bit field: a register number `x` or `y`, the row count `n`, the family (R71). -/
abbrev Nibble := BitVec 4

/-- The 12-bit address field `nnn` (R71). -/
abbrev Addr := BitVec 12

end Sys2Proof
end

