-- ==== Sys2Proof/Config.lean ====
section
/-! DEFINITION. What an implementation fixes: the constants of spec/00_scope.md R7, the named parameters of R8,
and the free value of R161. -/

namespace Sys2Proof

/-- MEM_SIZE, the number of memory cells (R7). -/
abbrev Config.memSize : Nat := 4096

/-- PROGRAM_BASE, the reset pc and the load address (R7). -/
abbrev Config.programBase : Nat := 0x200

/-- VF_ORDER: when VF is an operand of 8xy5, 8xy6, 8xy7 or 8xyE, is the flag written last, or are the two
assignments of the source row executed in the order written (spec/42_alu.md R150). -/
inductive VfOrder where
  | flagLast
  | sequential
  deriving DecidableEq, Repr

/-- BNNN_MODE: whether the words Bnnn are unmatched or the jump to nnn + V0 (spec/41_control_flow.md R124). -/
inductive BnnnMode where
  | unmatched
  | jumpV0
  deriving DecidableEq, Repr

/-- LOW_NIBBLE_5_9: whether the decoder checks the low nibble of 5xy0 and 9xy0 (spec/41_control_flow.md R120). -/
inductive LowNibble where
  | strict
  | ignore
  deriving DecidableEq, Repr

/-- KEY_INDEX_OOR: what Ex9E and ExA1 do with a key index above 15 (spec/45_keys_timers.md R232). -/
inductive KeyIndexOor where
  | fault
  | noSkipNoop
  deriving DecidableEq, Repr

/-- The named parameters of the model (R8). A claim either fixes them or holds for every value. -/
structure Params where
  /-- CYCLES_PER_FRAME: `none` is OPEN, the unconstrained schedule; `some n` is the frame schedule of
  spec/60_exceptions.md R267. -/
  cyclesPerFrame : Option Nat
  /-- VF_ORDER. -/
  vfOrder : VfOrder
  /-- BNNN_MODE. -/
  bnnnMode : BnnnMode
  /-- LOW_NIBBLE_5_9. -/
  lowNibble : LowNibble
  /-- KEY_INDEX_OOR. -/
  keyIndexOor : KeyIndexOor
  /-- FONT_IMAGE: no image, or the 80 bytes that the boot sequence places at 0x000 (spec/70_reset_and_hazards.md R292). -/
  fontImage : Option (Vector Byte 80)
  deriving DecidableEq, Repr

/-- FREE VALUE. The random byte of the k-th execution of Cxnn (spec/42_alu.md R161: "A claim about a program that
uses Cxnn holds for every sequence of draws"). It has no body, so no value of it can be proved. Log entry 1. -/
opaque Config.randomByte : Nat → Byte

end Sys2Proof
end

