-- ==== Sys2Proof/Machine/Defaults.lean ====
section
/-! DEFINITION. The default values of the named parameters (spec/00_scope.md R8). -/

namespace Sys2Proof.Machine

/-- The spec's default of every parameter (R8). -/
def defaultParams : Params where
  cyclesPerFrame := none
  vfOrder := .flagLast
  bnnnMode := .unmatched
  lowNibble := .strict
  keyIndexOor := .fault
  fontImage := none

/-- The parameter values under which EVERY row of spec/opcode_table.json selects its words: the defaults, but for
BNNN_MODE = JUMP_V0, since the row of Bnnn is "Selected only under BNNN_MODE = JUMP_V0" (R124; log entry 6). -/
def tableParams : Params := { defaultParams with bnnnMode := .jumpV0 }

end Sys2Proof.Machine
end

