-- ==== Sys2Proof/Syntax.lean ====
section
/-! DEFINITION. The instructions: one constructor per row of spec/opcode_table.json, with the operands that
spec/30_encoding.md R71 to R75 give it. -/

namespace Sys2Proof

/-- An instruction (spec/30_encoding.md R74). Register operands are the 4-bit numbers of R22. -/
inductive Instr where
  /-- CLS, 00E0 (R210). -/
  | cls
  /-- RET, 00EE (R111). -/
  | ret
  /-- JP addr, 1nnn (R112). -/
  | jp (nnn : Addr)
  /-- CALL addr, 2nnn (R113). -/
  | call (nnn : Addr)
  /-- SE Vx, byte, 3xnn (R116). -/
  | seByte (x : Nibble) (nn : Byte)
  /-- SNE Vx, byte, 4xnn (R117). -/
  | sneByte (x : Nibble) (nn : Byte)
  /-- SE Vx, Vy, 5xy0 (R118). -/
  | seReg (x y : Nibble)
  /-- LD Vx, byte, 6xnn (R140). -/
  | ldByte (x : Nibble) (nn : Byte)
  /-- ADD Vx, byte, 7xnn (R141). -/
  | addByte (x : Nibble) (nn : Byte)
  /-- LD Vx, Vy, 8xy0 (R142). -/
  | ldReg (x y : Nibble)
  /-- OR Vx, Vy, 8xy1 (R143). -/
  | orReg (x y : Nibble)
  /-- AND Vx, Vy, 8xy2 (R144). -/
  | andReg (x y : Nibble)
  /-- XOR Vx, Vy, 8xy3 (R145). -/
  | xorReg (x y : Nibble)
  /-- ADD Vx, Vy, 8xy4 (R151). -/
  | addReg (x y : Nibble)
  /-- SUB Vx, Vy, 8xy5 (R152). -/
  | sub (x y : Nibble)
  /-- SHR Vx, 8xy6; y is decoded and ignored (R153, R75). -/
  | shr (x y : Nibble)
  /-- SUBN Vx, Vy, 8xy7 (R154). -/
  | subn (x y : Nibble)
  /-- SHL Vx, 8xyE; y is decoded and ignored (R155, R75). -/
  | shl (x y : Nibble)
  /-- SNE Vx, Vy, 9xy0 (R119). -/
  | sneReg (x y : Nibble)
  /-- LD I, addr, Annn (R180). -/
  | ldI (nnn : Addr)
  /-- JP V0, addr, Bnnn, under BNNN_MODE = JUMP_V0 (R124). -/
  | jpV0 (nnn : Addr)
  /-- RND Vx, byte, Cxnn (R160). -/
  | rnd (x : Nibble) (nn : Byte)
  /-- DRW Vx, Vy, nibble, Dxyn (R212). -/
  | drw (x y n : Nibble)
  /-- SKP Vx, Ex9E (R230). -/
  | skp (x : Nibble)
  /-- SKNP Vx, ExA1 (R231). -/
  | sknp (x : Nibble)
  /-- LD Vx, DT, Fx07 (R240). -/
  | ldVxDt (x : Nibble)
  /-- LD Vx, K, Fx0A (R235). -/
  | ldVxK (x : Nibble)
  /-- LD DT, Vx, Fx15 (R241). -/
  | ldDtVx (x : Nibble)
  /-- LD ST, Vx, Fx18 (R242). -/
  | ldStVx (x : Nibble)
  /-- ADD I, Vx, Fx1E (R183). -/
  | addI (x : Nibble)
  /-- LD F, Vx, Fx29 (R185). -/
  | ldF (x : Nibble)
  /-- LD B, Vx, Fx33 (R187). -/
  | ldB (x : Nibble)
  /-- LD [I], Vx, Fx55 (R189). -/
  | storeRegs (x : Nibble)
  /-- LD Vx, [I], Fx65 (R191). -/
  | loadRegs (x : Nibble)
  /-- A word that no row selects; it keeps the word it was decoded from (R98). -/
  | unmatched (op : Word)
  deriving DecidableEq, Repr

/-- Why a list of bytes holds no instruction. Every 16-bit word is an instruction (R74), so the only reason is that
fewer than two bytes are there (R70). -/
inductive DecodeError where
  | tooShort
  deriving DecidableEq, Repr

end Sys2Proof
end

