-- ==== Sys2Proof/WellFormed.lean ====
section
/-! DEFINITION. Which terms of Instr and Params stand for something the spec has. -/

namespace Sys2Proof

/-- The unmatched words, from the list of spec/30_encoding.md R76 and from the parameters of R74: written apart from the
decoder, so that the two can be held against each other. -/
def unmatchedWord (p : Params) (op : Word) : Bool :=
  let f := op.extractLsb' 12 4
  let n := op.extractLsb' 0 4
  let nn := op.extractLsb' 0 8
  (f == 0x0#4 && op != 0x00E0#16 && op != 0x00EE#16)
    || (f == 0x5#4 && n != 0x0#4 && p.lowNibble == .strict)
    || (f == 0x8#4 && (n == 0x8#4 || n == 0x9#4 || n == 0xA#4 || n == 0xB#4 || n == 0xC#4 || n == 0xD#4 || n == 0xF#4))
    || (f == 0x9#4 && n != 0x0#4 && p.lowNibble == .strict)
    || (f == 0xB#4 && p.bnnnMode == .unmatched)
    || (f == 0xE#4 && nn != 0x9E#8 && nn != 0xA1#8)
    || (f == 0xF#4 && nn != 0x07#8 && nn != 0x0A#8 && nn != 0x15#8 && nn != 0x18#8 && nn != 0x1E#8
        && nn != 0x29#8 && nn != 0x33#8 && nn != 0x55#8 && nn != 0x65#8)

/-- An instruction is well formed under `p` when some word selects it (R74): JP V0 exists only under
BNNN_MODE = JUMP_V0 (R124), and `unmatched op` only for a word that no row selects (R76). The widths of the operand
types rule out every other ill-formed term. -/
def Instr.wellFormed (p : Params) (i : Instr) : Bool :=
  match i with
  | .jpV0 _ => p.bnnnMode == .jumpV0
  | .unmatched op => unmatchedWord p op
  | .cls | .ret | .jp _ | .call _ | .seByte _ _ | .sneByte _ _ | .seReg _ _ | .ldByte _ _ | .addByte _ _ | .ldReg _ _
  | .orReg _ _ | .andReg _ _ | .xorReg _ _ | .addReg _ _ | .sub _ _ | .shr _ _ | .subn _ _ | .shl _ _ | .sneReg _ _
  | .ldI _ | .rnd _ _ | .drw _ _ _ | .skp _ | .sknp _ | .ldVxDt _ | .ldVxK _ | .ldDtVx _ | .ldStVx _ | .addI _ | .ldF _
  | .ldB _ | .storeRegs _ | .loadRegs _ => true

/-- CYCLES_PER_FRAME is a natural number of at least 1, or unconstrained (spec/00_scope.md R8). -/
def Params.wellFormed (p : Params) : Bool := p.cyclesPerFrame != some 0

end Sys2Proof
end

