-- ==== Sys2Proof/Decode.lean ====
section
/-! DEFINITION. The decoder and the encoder (spec/30_encoding.md R70 to R76), and the opcode table's masks. -/

namespace Sys2Proof

/-! ### Fields (R71) -/

/-- `f`, op[15:12]. -/
def Field.family (op : Word) : Nibble := op.extractLsb' 12 4
/-- `x`, op[11:8]. -/
def Field.x (op : Word) : Nibble := op.extractLsb' 8 4
/-- `y`, op[7:4]. -/
def Field.y (op : Word) : Nibble := op.extractLsb' 4 4
/-- `n`, op[3:0]. -/
def Field.n (op : Word) : Nibble := op.extractLsb' 0 4
/-- `nn`, op[7:0]. -/
def Field.nn (op : Word) : Byte := op.extractLsb' 0 8
/-- `nnn`, op[11:0]. -/
def Field.nnn (op : Word) : Addr := op.extractLsb' 0 12

/-! ### The decoder, family by family (R74) -/

/-- Family 0x0: the two fixed words; every other 0nnn is unmatched (R126). -/
def decode0 (op : Word) : Instr :=
  if op = 0x00E0#16 then .cls
  else if op = 0x00EE#16 then .ret
  else .unmatched op

/-- Family 0x5 (R118, R120). -/
def decode5 (p : Params) (op : Word) : Instr :=
  if Field.n op = 0x0#4 ∨ p.lowNibble = .ignore then .seReg (Field.x op) (Field.y op) else .unmatched op

/-- Family 0x8 (R142 to R145, R151 to R156). -/
def decode8 (op : Word) : Instr :=
  let n := Field.n op
  if n = 0x0#4 then .ldReg (Field.x op) (Field.y op)
  else if n = 0x1#4 then .orReg (Field.x op) (Field.y op)
  else if n = 0x2#4 then .andReg (Field.x op) (Field.y op)
  else if n = 0x3#4 then .xorReg (Field.x op) (Field.y op)
  else if n = 0x4#4 then .addReg (Field.x op) (Field.y op)
  else if n = 0x5#4 then .sub (Field.x op) (Field.y op)
  else if n = 0x6#4 then .shr (Field.x op) (Field.y op)
  else if n = 0x7#4 then .subn (Field.x op) (Field.y op)
  else if n = 0xE#4 then .shl (Field.x op) (Field.y op)
  else .unmatched op

/-- Family 0x9 (R119, R120). -/
def decode9 (p : Params) (op : Word) : Instr :=
  if Field.n op = 0x0#4 ∨ p.lowNibble = .ignore then .sneReg (Field.x op) (Field.y op) else .unmatched op

/-- Family 0xB (R124). -/
def decodeB (p : Params) (op : Word) : Instr :=
  if p.bnnnMode = .jumpV0 then .jpV0 (Field.nnn op) else .unmatched op

/-- Family 0xE (R230, R231, R244). -/
def decodeE (op : Word) : Instr :=
  let nn := Field.nn op
  if nn = 0x9E#8 then .skp (Field.x op)
  else if nn = 0xA1#8 then .sknp (Field.x op)
  else .unmatched op

/-- Family 0xF (R240, R235, R241, R242, R183, R185, R187, R189, R191, R193). -/
def decodeF (op : Word) : Instr :=
  let nn := Field.nn op
  if nn = 0x07#8 then .ldVxDt (Field.x op)
  else if nn = 0x0A#8 then .ldVxK (Field.x op)
  else if nn = 0x15#8 then .ldDtVx (Field.x op)
  else if nn = 0x18#8 then .ldStVx (Field.x op)
  else if nn = 0x1E#8 then .addI (Field.x op)
  else if nn = 0x29#8 then .ldF (Field.x op)
  else if nn = 0x33#8 then .ldB (Field.x op)
  else if nn = 0x55#8 then .storeRegs (Field.x op)
  else if nn = 0x65#8 then .loadRegs (Field.x op)
  else .unmatched op

/-- The decoder: every 16-bit word has exactly one outcome (R74, R92). It reads the word and the parameters only. -/
def decode (p : Params) (op : Word) : Instr :=
  match (Field.family op).toNat with
  | 0x0 => decode0 op
  | 0x1 => .jp (Field.nnn op)
  | 0x2 => .call (Field.nnn op)
  | 0x3 => .seByte (Field.x op) (Field.nn op)
  | 0x4 => .sneByte (Field.x op) (Field.nn op)
  | 0x5 => decode5 p op
  | 0x6 => .ldByte (Field.x op) (Field.nn op)
  | 0x7 => .addByte (Field.x op) (Field.nn op)
  | 0x8 => decode8 op
  | 0x9 => decode9 p op
  | 0xA => .ldI (Field.nnn op)
  | 0xB => decodeB p op
  | 0xC => .rnd (Field.x op) (Field.nn op)
  | 0xD => .drw (Field.x op) (Field.y op) (Field.n op)
  | 0xE => decodeE op
  | _ => decodeF op

/-- The two bytes of an instruction, high byte at the lower address, as one word (R50). -/
def joinBytes (hi lo : Byte) : Word := hi ++ lo

/-- The bytes of a word as the hardware stores them, the first at the lower address (R50, R70). -/
def wordBytes (op : Word) : List Byte := [op.extractLsb' 8 8, op.extractLsb' 0 8]

/-- Decode the instruction at the head of a list of bytes and give back the rest (R70: always two bytes). -/
def decodeBytes (p : Params) : List Byte → Except DecodeError (Instr × List Byte)
  | hi :: lo :: rest => .ok (decode p (joinBytes hi lo), rest)
  | _ => .error .tooShort

/-! ### The encoder (R72, R78) -/

/-- Format `nnn`: `FFFF nnnn nnnn nnnn` (R72). -/
def Layout.nnn (f : Nibble) (nnn : Addr) : Word := f ++ nnn
/-- Format `xnn`: `FFFF xxxx nnnn nnnn`; with a function code for nn, format `x_func` (R72). -/
def Layout.xnn (f x : Nibble) (nn : Byte) : Word := f ++ x ++ nn
/-- Format `xyn`: `FFFF xxxx yyyy nnnn`; with a function code for n, format `xy_func` (R72). -/
def Layout.xyn (f x y n : Nibble) : Word := f ++ x ++ y ++ n

/-- The word of an instruction (R72, R74). 5xy0 and 9xy0 are written with n = 0. -/
def encode (i : Instr) : Word :=
  match i with
  | .cls => 0x00E0#16
  | .ret => 0x00EE#16
  | .jp nnn => Layout.nnn 0x1#4 nnn
  | .call nnn => Layout.nnn 0x2#4 nnn
  | .seByte x nn => Layout.xnn 0x3#4 x nn
  | .sneByte x nn => Layout.xnn 0x4#4 x nn
  | .seReg x y => Layout.xyn 0x5#4 x y 0x0#4
  | .ldByte x nn => Layout.xnn 0x6#4 x nn
  | .addByte x nn => Layout.xnn 0x7#4 x nn
  | .ldReg x y => Layout.xyn 0x8#4 x y 0x0#4
  | .orReg x y => Layout.xyn 0x8#4 x y 0x1#4
  | .andReg x y => Layout.xyn 0x8#4 x y 0x2#4
  | .xorReg x y => Layout.xyn 0x8#4 x y 0x3#4
  | .addReg x y => Layout.xyn 0x8#4 x y 0x4#4
  | .sub x y => Layout.xyn 0x8#4 x y 0x5#4
  | .shr x y => Layout.xyn 0x8#4 x y 0x6#4
  | .subn x y => Layout.xyn 0x8#4 x y 0x7#4
  | .shl x y => Layout.xyn 0x8#4 x y 0xE#4
  | .sneReg x y => Layout.xyn 0x9#4 x y 0x0#4
  | .ldI nnn => Layout.nnn 0xA#4 nnn
  | .jpV0 nnn => Layout.nnn 0xB#4 nnn
  | .rnd x nn => Layout.xnn 0xC#4 x nn
  | .drw x y n => Layout.xyn 0xD#4 x y n
  | .skp x => Layout.xnn 0xE#4 x 0x9E#8
  | .sknp x => Layout.xnn 0xE#4 x 0xA1#8
  | .ldVxDt x => Layout.xnn 0xF#4 x 0x07#8
  | .ldVxK x => Layout.xnn 0xF#4 x 0x0A#8
  | .ldDtVx x => Layout.xnn 0xF#4 x 0x15#8
  | .ldStVx x => Layout.xnn 0xF#4 x 0x18#8
  | .addI x => Layout.xnn 0xF#4 x 0x1E#8
  | .ldF x => Layout.xnn 0xF#4 x 0x29#8
  | .ldB x => Layout.xnn 0xF#4 x 0x33#8
  | .storeRegs x => Layout.xnn 0xF#4 x 0x55#8
  | .loadRegs x => Layout.xnn 0xF#4 x 0x65#8
  | .unmatched op => op

/-! ### The opcode table's match and mask -/

/-- The row of spec/opcode_table.json that an instruction stands in, as (match, mask). The last row matches every word
and has the lowest priority (R98). -/
def Instr.row (i : Instr) : Word × Word :=
  match i with
  | .cls => (0x00E0#16, 0xFFFF#16)
  | .ret => (0x00EE#16, 0xFFFF#16)
  | .jp _ => (0x1000#16, 0xF000#16)
  | .call _ => (0x2000#16, 0xF000#16)
  | .seByte _ _ => (0x3000#16, 0xF000#16)
  | .sneByte _ _ => (0x4000#16, 0xF000#16)
  | .seReg _ _ => (0x5000#16, 0xF00F#16)
  | .ldByte _ _ => (0x6000#16, 0xF000#16)
  | .addByte _ _ => (0x7000#16, 0xF000#16)
  | .ldReg _ _ => (0x8000#16, 0xF00F#16)
  | .orReg _ _ => (0x8001#16, 0xF00F#16)
  | .andReg _ _ => (0x8002#16, 0xF00F#16)
  | .xorReg _ _ => (0x8003#16, 0xF00F#16)
  | .addReg _ _ => (0x8004#16, 0xF00F#16)
  | .sub _ _ => (0x8005#16, 0xF00F#16)
  | .shr _ _ => (0x8006#16, 0xF00F#16)
  | .subn _ _ => (0x8007#16, 0xF00F#16)
  | .shl _ _ => (0x800E#16, 0xF00F#16)
  | .sneReg _ _ => (0x9000#16, 0xF00F#16)
  | .ldI _ => (0xA000#16, 0xF000#16)
  | .jpV0 _ => (0xB000#16, 0xF000#16)
  | .rnd _ _ => (0xC000#16, 0xF000#16)
  | .drw _ _ _ => (0xD000#16, 0xF000#16)
  | .skp _ => (0xE09E#16, 0xF0FF#16)
  | .sknp _ => (0xE0A1#16, 0xF0FF#16)
  | .ldVxDt _ => (0xF007#16, 0xF0FF#16)
  | .ldVxK _ => (0xF00A#16, 0xF0FF#16)
  | .ldDtVx _ => (0xF015#16, 0xF0FF#16)
  | .ldStVx _ => (0xF018#16, 0xF0FF#16)
  | .addI _ => (0xF01E#16, 0xF0FF#16)
  | .ldF _ => (0xF029#16, 0xF0FF#16)
  | .ldB _ => (0xF033#16, 0xF0FF#16)
  | .storeRegs _ => (0xF055#16, 0xF0FF#16)
  | .loadRegs _ => (0xF065#16, 0xF0FF#16)
  | .unmatched _ => (0x0000#16, 0x0000#16)

/-! ### Words of the opcode table -/

/-- The instruction word whose bits are w, numbered as spec/opcode_table.json numbers them (an instruction is one
16-bit word, R70, so bits from nbits up are 0). -/
def tableWord (nbits w : Nat) : Word := BitVec.ofNat 16 (w % 2 ^ nbits)

/-- The instruction that the decoder reads from the bytes of a table word, under the parameters that make every row of
the table select its words (log entry 6). No row is wider than 16 bits. -/
def decodeTableWord (nbits w : Nat) : Option Instr :=
  if 16 < nbits then none
  else
    match decodeBytes Machine.tableParams (wordBytes (tableWord nbits w)) with
    | .ok (i, _) => some i
    | .error _ => none

end Sys2Proof
end

