-- ==== Sys2Proof/Machine/State.lean ====
section
/-! DEFINITION. The state of the block (spec/10_state.md R20 to R35), its reset value, and the ways a step can stop. -/

namespace Sys2Proof.Machine

/-- The fault kinds that the block's fault latch can hold (spec/60_exceptions.md R250). The latch holds NONE as `none`. -/
inductive FaultKind where
  /-- Code 1: the fetch of a cycle at pc of 0xFFF or above (R91). -/
  | addressOutOfRange
  /-- Code 2: 2nnn with SP = 16 (R113). -/
  | stackOverflow
  /-- Code 3: 00EE with SP = 0 (R111). -/
  | stackUnderflow
  /-- Code 4: Dxyn, Fx33, Fx55 or Fx65 at an address of 4096 or above (R56). -/
  | dataAddressOutOfRange
  /-- Code 5: Ex9E or ExA1 with a key index above 15, under KEY_INDEX_OOR = FAULT (R232). -/
  | keyIndexOutOfRange
  deriving DecidableEq, Repr

/-- Memory as (address, byte) pairs; an unlisted address reads as 0, the reset contents (R35).
DESIGN CHOICE, log entry 9. -/
abbrev Memory := List Host.Cell

/-- The framebuffer: 32 rows of 64 one-bit pixels (R30). -/
abbrev Display := Vector (Vector Bool 64) 32

/-- What the host can read without side effect (spec/60_exceptions.md R268, R269, R275, R276). -/
inductive ReadPort where
  | pc
  | reg (x : Nibble)
  | soundTimer
  | soundOutput
  | display
  | fault
  deriving DecidableEq, Repr

/-- The host's operations, each one atomic step (spec/60_exceptions.md R265), and the boot's font write
(spec/70_reset_and_hazards.md R292). -/
inductive HostOp where
  /-- `reset` (R290). -/
  | reset
  /-- The font image of parameter FONT_IMAGE, if any, written by the boot sequence right after reset and at no other time
  (R292, R65). -/
  | writeFont
  /-- `load_program(bytes)` (R270). -/
  | loadProgram (bytes : List Byte)
  /-- `set_key(index, pressed)`; the index may be any number (R271). -/
  | setKey (index : Int) (pressed : Bool)
  /-- `cycle` (spec/40_cycle.md R90). -/
  | cycle
  /-- `tick` (R262). -/
  | tick
  /-- A read of the state, with no effect (R268, R269, R275, R276). -/
  | read (port : ReadPort)
  deriving DecidableEq, Repr

/-- The complete state of the block (R20), and last the model's own fields: the named parameters (log entry 3),
the number of random draws made (log entry 1) and the host operations to come (log entry 2). -/
structure State where
  /-- Memory, 4096 bytes (R21). -/
  mem : Memory
  /-- V0 to VF (R22). -/
  v : Vector Byte 16
  /-- The index register I (R25). -/
  i : Word
  /-- The program counter (R26). -/
  pc : Word
  /-- The return addresses (R28). -/
  stack : Vector Word 16
  /-- The stack pointer SP, 0 to 16 (R28). -/
  sp : Fin 17
  /-- The delay timer DT (R29). -/
  dt : Byte
  /-- The sound timer ST (R29). -/
  st : Byte
  /-- The framebuffer (R30). -/
  disp : Display
  /-- The key latch (R31). -/
  key : Vector Bool 16
  /-- The fault latch (R32). -/
  fault : Option FaultKind
  /-- MODEL: the named parameters of spec/00_scope.md R8. No step changes them. -/
  params : Params
  /-- MODEL: how many random bytes have been drawn (spec/42_alu.md R161). -/
  draws : Nat
  /-- MODEL: the host operations to come, the next one first; when none is listed the host calls `cycle`. -/
  pending : List HostOp
  deriving DecidableEq, Repr

/-- Why a step stops for good: the host asked for an operation that the block does not take in this state. -/
inductive Fault where
  /-- Raised by a step that is a cycle or a tick while the fault latch holds `kind`: the block is halted, "it takes no
  cycle step and no tick step" (spec/60_exceptions.md R253). Safe: the spec has no such step (log entry 4). -/
  | halted (kind : FaultKind)
  /-- Raised by the boot's font write in a state that is not the one right after reset: the boot sequence writes the image
  "after reset and before `load_program`" (spec/70_reset_and_hazards.md R292), and nothing else but load_program writes
  memory for the host (spec/20_memory.md R65). Safe: the spec has no such step (log entry 10). -/
  | fontWriteOutsideBoot
  deriving DecidableEq, Repr

/-- Why an instruction has no meaning. -/
inductive Refusal where
  /-- Raised by an arm of `exec` whose instruction has no meaning yet. Safe: the model stops where the hardware goes on.
  No arm raises it: every instruction has its meaning. -/
  | notModelled (mnemonic : String)
  deriving DecidableEq, Repr

/-- The outcome of a step or of an instruction. -/
abbrev Result := Host.Outcome State Fault Refusal

/-- The state after reset (R35), with the default parameters (R8), no draw made and no host operation listed. -/
def State.reset : State where
  mem := []
  v := Vector.replicate 16 0
  i := 0
  pc := BitVec.ofNat 16 Config.programBase
  stack := Vector.replicate 16 0
  sp := 0
  dt := 0
  st := 0
  disp := Vector.replicate 32 (Vector.replicate 64 false)
  key := Vector.replicate 16 false
  fault := none
  params := defaultParams
  draws := 0
  pending := []

end Sys2Proof.Machine
end

