-- ==== Sys2Proof/Machine/Ops.lean ====
section
/-! DEFINITION. The named operations over memory, registers, stack and framebuffer; the instruction fetch; taking a
fault, and the reset that ends one. -/

namespace Sys2Proof.Machine

/-! ### Memory (spec/20_memory.md) -/

/-- The byte at an address; an unlisted address reads as 0 (R35, R55). -/
def Memory.read : Memory → Nat → Byte
  | [], _ => 0
  | (a, b) :: rest, addr => if a = addr then b else Memory.read rest addr

/-- Write one byte (R55), keeping addresses rising and no zero listed. -/
def Memory.write : Memory → Nat → Byte → Memory
  | [], addr, v => if v = 0 then [] else [(addr, v)]
  | (a, b) :: rest, addr, v =>
    if addr < a then (if v = 0 then (a, b) :: rest else (addr, v) :: (a, b) :: rest)
    else if addr = a then (if v = 0 then rest else (addr, v) :: rest)
    else (a, b) :: Memory.write rest addr v

/-- Write bytes to consecutive increasing addresses, the first at `addr` (R50, R53). -/
def Memory.writeBlock : Memory → Nat → List Byte → Memory
  | m, _, [] => m
  | m, addr, b :: bs => Memory.writeBlock (Memory.write m addr b) (addr + 1) bs

/-- Every listed address is at least `lo` and below `hi`, addresses rise strictly, and no listed byte is 0. -/
def Memory.wfFrom (hi : Nat) : Nat → Memory → Bool
  | _, [] => true
  | lo, (a, b) :: rest => decide (lo ≤ a) && decide (a < hi) && decide (b ≠ 0) && Memory.wfFrom hi (a + 1) rest

/-- The canonical form of memory, within the address space of R58. -/
def Memory.wf (m : Memory) : Bool := Memory.wfFrom Config.memSize 0 m

/-! ### Registers (spec/10_state.md R22 to R26) -/

/-- The register number of VF (R22). -/
abbrev vf : Nibble := 0xF#4

/-- Read Vx. -/
def State.getV (s : State) (x : Nibble) : Byte := s.v[x.toNat]'x.isLt

/-- Write Vx; no register is hard-wired (R22). -/
def State.setV (s : State) (x : Nibble) (b : Byte) : State := { s with v := s.v.set x.toNat b x.isLt }

/-- Write I. -/
def State.setI (s : State) (w : Word) : State := { s with i := w }

/-- Write pc. -/
def State.setPc (s : State) (w : Word) : State := { s with pc := w }

/-- The baseline advance (spec/40_cycle.md R95, R96). DEDUCED: a sum past 2^16, which no run reaches, wraps (log entry 5). -/
def State.advance (s : State) : State := s.setPc (s.pc + 2#16)

/-- The baseline advance, and a second one when the skip condition holds (R95, R96; log entry 5). -/
def State.skipIf (s : State) (c : Bool) : State := s.setPc (if c then s.pc + 4#16 else s.pc + 2#16)

/-- Write DT. -/
def State.setDt (s : State) (b : Byte) : State := { s with dt := b }

/-- Write ST. -/
def State.setSt (s : State) (b : Byte) : State := { s with st := b }

/-- Write memory. -/
def State.setMem (s : State) (m : Memory) : State := { s with mem := m }

/-- Write the framebuffer. -/
def State.setDisp (s : State) (d : Display) : State := { s with disp := d }

/-- Count one more random draw. -/
def State.countDraw (s : State) : State := { s with draws := s.draws + 1 }

/-- The V registers V0 .. Vx, in order (spec/43_index_memory.md R189). -/
def State.regsUpTo (s : State) (x : Nibble) : List Byte := s.v.toList.take (x.toNat + 1)

/-- `for k in 0 .. count - 1: V[k] <- mem[base + k]` (spec/43_index_memory.md R191); `count` is at most 16. -/
def State.fillRegs (s : State) (base : Nat) : Nat → State
  | 0 => s
  | k + 1 => (State.fillRegs s base k).setV (BitVec.ofNat 4 k) (Memory.read s.mem (base + k))

/-! ### Stack (R28) -/

/-- Push a return address, or nothing when all 16 entries are used. -/
def State.push (s : State) (w : Word) : Option State :=
  if h : s.sp.val < 16 then
    some { s with stack := s.stack.set s.sp.val w h, sp := ⟨s.sp.val + 1, by omega⟩ }
  else none

/-- Pop a return address, or nothing when the stack is empty. The popped entry keeps its value (R28). -/
def State.pop (s : State) : Option (Word × State) :=
  if h : s.sp.val = 0 then none
  else some (s.stack[s.sp.val - 1]'(by omega), { s with sp := ⟨s.sp.val - 1, by omega⟩ })

/-! ### Framebuffer (spec/44_display.md) -/

/-- The pixel at a row and a column. -/
def Display.get (d : Display) (r : Fin 32) (c : Fin 64) : Bool := d[r.val][c.val]

/-- XOR one pixel with 1. -/
def Display.flip (d : Display) (r : Fin 32) (c : Fin 64) : Display :=
  d.set r.val (d[r.val].set c.val (!d[r.val][c.val]))

/-- A framebuffer with every pixel 0 (R210). -/
def Display.clear : Display := Vector.replicate 32 (Vector.replicate 64 false)

/-- The row that a vertical coordinate stands for, reduced modulo the height (R213). -/
def wrapRow (n : Nat) : Fin 32 := ⟨n % 32, Nat.mod_lt _ (by decide)⟩

/-- The column that a horizontal coordinate stands for, reduced modulo the width (R213). -/
def wrapCol (n : Nat) : Fin 64 := ⟨n % 64, Nat.mod_lt _ (by decide)⟩

/-- Bit 7 - j of a sprite byte, the pixel j places from the left (R214). -/
def spriteBit (b : Byte) (j : Nat) : Bool := b.getLsbD (7 - j)

/-- One bit of a sprite, onto the framebuffer and the collision flag (R212, R215). -/
def drawBit (b : Byte) (row col j : Nat) (acc : Display × Bool) : Display × Bool :=
  if spriteBit b j then
    (Display.flip acc.1 (wrapRow row) (wrapCol (col + j)),
      acc.2 || Display.get acc.1 (wrapRow row) (wrapCol (col + j)))
  else acc

/-- One row of a sprite: `for j in 0 .. 7` (R212). -/
def drawByte (b : Byte) (row col : Nat) (acc : Display × Bool) : Display × Bool :=
  (List.range 8).foldl (fun acc j => drawBit b row col j acc) acc

/-- A sprite of `n` rows: `for r in 0 .. n - 1` (R212). -/
def drawSprite (m : Memory) (base row col n : Nat) (acc : Display × Bool) : Display × Bool :=
  (List.range n).foldl (fun acc r => drawByte (Memory.read m (base + r)) (row + r) col acc) acc

/-! ### Fetch (spec/40_cycle.md R91) -/

/-- The two bytes at pc and pc + 1, the first the high byte (R50). -/
def State.fetchWord (s : State) : Word :=
  joinBytes (Memory.read s.mem s.pc.toNat) (Memory.read s.mem (s.pc.toNat + 1))

/-- "PC or PC+1 ≥ 4096", the same as pc ≥ 0xFFF (R91). -/
def State.fetchOutOfRange (s : State) : Bool := decide (0xFFF ≤ s.pc.toNat)

/-! ### Faults and reset -/

/-- The code of a fault kind; NONE is 0 (spec/60_exceptions.md R250). -/
def faultCode : Option FaultKind → Nat
  | none => 0
  | some .addressOutOfRange => 1
  | some .stackOverflow => 2
  | some .stackUnderflow => 3
  | some .dataAddressOutOfRange => 4
  | some .keyIndexOutOfRange => 5

/-- Taking a fault: `fault <- kind` and no other field is written (R252). -/
def raise (kind : FaultKind) (s : State) : Result := .next { s with fault := some kind }

/-- `reset()`: every field of the spec's state at its reset value (spec/70_reset_and_hazards.md R290). It is the only way
out of a fault (R253): there is no return from trap (R256). The model's own fields stay: the parameters are fixed, the
host's next random byte is a new one, and the host's schedule is not the block's. -/
def resetBlock (s : State) : State :=
  { State.reset with params := s.params, draws := s.draws, pending := s.pending }

end Sys2Proof.Machine
end

