-- ==== Sys2Proof/Machine/Flags.lean ====
section
/-! DEFINITION. The values VF receives (spec/42_alu.md R151 to R155, spec/44_display.md R212) and the order of the two writes
of a flag-writing instruction (R150). -/

namespace Sys2Proof.Machine

/-- `[c]`: 1 when the condition holds, else 0 (spec/00_scope.md R10). -/
def flagByte (c : Bool) : Byte := if c then 1#8 else 0#8

/-- Carry out of bit 7: `[a + b > 255]` (R151). -/
def carryFlag (a b : Byte) : Byte := flagByte (decide (255 < a.toNat + b.toNat))

/-- Not-borrow of `a - b`: `[a ≥ b]` (R152, R154). -/
def notBorrowFlag (a b : Byte) : Byte := flagByte (decide (b.toNat ≤ a.toNat))

/-- The bit that a right shift by one shifts out: bit 0 (R153). -/
def shiftedOutRight (a : Byte) : Byte := flagByte (a.getLsbD 0)

/-- The bit that a left shift by one shifts out: bit 7 (R155). -/
def shiftedOutLeft (a : Byte) : Byte := flagByte (a.getLsbD 7)

/-- Write a result to Vx and a flag to VF, both functions of the values of Vx and Vy, in the order of VF_ORDER (R150).
FLAG_LAST: both operands are read at the start, the result is written, then the flag. SEQUENTIAL: the flag is written
first, and the result is computed from the registers that this leaves. -/
def State.writeFlagged (s : State) (result flag : Byte → Byte → Byte) (x y : Nibble) : State :=
  match s.params.vfOrder with
  | .flagLast => (s.setV x (result (s.getV x) (s.getV y))).setV vf (flag (s.getV x) (s.getV y))
  | .sequential =>
    let s' := s.setV vf (flag (s.getV x) (s.getV y))
    s'.setV x (result (s'.getV x) (s'.getV y))

end Sys2Proof.Machine
end

