-- ==== Sys2Proof/Machine/Alu.lean ====
section
/-! DEFINITION. Register loads, logic, arithmetic, shifts and the random byte (spec/42_alu.md). -/

namespace Sys2Proof.Machine

/-- LD Vx, byte (R140). -/
def execLdByte (x : Nibble) (nn : Byte) (s : State) : Result := .next (s.setV x nn).advance

/-- ADD Vx, byte: mod 256, no carry anywhere (R141). -/
def execAddByte (x : Nibble) (nn : Byte) (s : State) : Result := .next (s.setV x (s.getV x + nn)).advance

/-- LD Vx, Vy (R142). -/
def execLdReg (x y : Nibble) (s : State) : Result := .next (s.setV x (s.getV y)).advance

/-- OR Vx, Vy (R143). -/
def execOrReg (x y : Nibble) (s : State) : Result := .next (s.setV x (s.getV x ||| s.getV y)).advance

/-- AND Vx, Vy (R144). -/
def execAndReg (x y : Nibble) (s : State) : Result := .next (s.setV x (s.getV x &&& s.getV y)).advance

/-- XOR Vx, Vy (R145). -/
def execXorReg (x y : Nibble) (s : State) : Result := .next (s.setV x (s.getV x ^^^ s.getV y)).advance

/-- ADD Vx, Vy: the sum, then the carry, both of the values at the start, under both values of VF_ORDER (R151). -/
def execAddReg (x y : Nibble) (s : State) : Result :=
  .next ((s.setV x (s.getV x + s.getV y)).setV vf (carryFlag (s.getV x) (s.getV y))).advance

/-- SUB Vx, Vy (R152). -/
def execSub (x y : Nibble) (s : State) : Result :=
  .next (s.writeFlagged (fun a b => a - b) (fun a b => notBorrowFlag a b) x y).advance

/-- SHR Vx; Vy is never read (R153). -/
def execShr (x _y : Nibble) (s : State) : Result :=
  .next (s.writeFlagged (fun a _ => a >>> 1) (fun a _ => shiftedOutRight a) x x).advance

/-- SUBN Vx, Vy (R154). -/
def execSubn (x y : Nibble) (s : State) : Result :=
  .next (s.writeFlagged (fun a b => b - a) (fun a b => notBorrowFlag b a) x y).advance

/-- SHL Vx; Vy is never read (R155). -/
def execShl (x _y : Nibble) (s : State) : Result :=
  .next (s.writeFlagged (fun a _ => a <<< 1) (fun a _ => shiftedOutLeft a) x x).advance

/-- RND Vx, byte: the next free random byte, masked (R160, R161). -/
def execRnd (x : Nibble) (nn : Byte) (s : State) : Result :=
  .next (s.setV x (Config.randomByte s.draws &&& nn)).countDraw.advance

end Sys2Proof.Machine
end

