-- ==== Sys2Proof/Machine/Operands.lean ====
section
/-! DEFINITION. The operand forms: immediates (spec/30_encoding.md R73), addresses based on I (spec/20_memory.md R53, R56),
key indices (spec/45_keys_timers.md R230 to R235) and the BCD operation (spec/43_index_memory.md R188). -/

namespace Sys2Proof.Machine

/-- `zext_16(nnn)` (R73). -/
def addrValue (nnn : Addr) : Word := nnn.zeroExtend 16

/-- `zext_16` of a register value, for sums with a 16-bit value (R10). -/
def byteValue (b : Byte) : Word := b.zeroExtend 16

/-- The address of the access at I + k, a natural number that never wraps (R56, R184). -/
def State.dataAddr (s : State) (k : Nat) : Nat := s.i.toNat + k

/-- Some access of a block of `count` bytes at I is at an address of 4096 or above (R56); a block of none has no access. -/
def State.blockOutOfRange (s : State) (count : Nat) : Bool :=
  decide (0 < count) && decide (Config.memSize ≤ s.dataAddr (count - 1))

/-- Run `body` after checking every address of a block of `count` bytes at I, before anything is written (R56, R12). -/
def State.withBlock (s : State) (count : Nat) (body : State) : Result :=
  if s.blockOutOfRange count then raise .dataAddressOutOfRange s else .next body

/-- The glyph address `(Vx AND 0x0F) * 5` (R185). -/
def glyphAddr (b : Byte) : Word := byteValue (b &&& 0x0F#8) * 5#16

/-- The BCD triple, hundreds first (R188). -/
def bcdDigits (b : Byte) : List Byte :=
  [BitVec.ofNat 8 (b.toNat / 100), BitVec.ofNat 8 (b.toNat / 10 % 10), BitVec.ofNat 8 (b.toNat % 10)]

/-- The latch flag of the key that a register value names; none when it names no key of the 16 (R232). -/
def State.keyAt (s : State) (b : Byte) : Option Bool := s.key[b.toNat]?

/-- The lowest pressed key, if any: `min { k | key[k] = 1 }` (R235). -/
def State.lowestKey (s : State) : Option Nat := s.key.toList.findIdx? (fun pressed => pressed)

/-- A key test: skip when the flag of key[Vx] equals `want`; above 15, KEY_INDEX_OOR decides (R230, R231, R232). -/
def State.keySkip (s : State) (x : Nibble) (want : Bool) : Result :=
  match s.keyAt (s.getV x) with
  | some pressed => .next (s.skipIf (pressed == want))
  | none =>
    match s.params.keyIndexOor with
    | .fault => raise .keyIndexOutOfRange s
    | .noSkipNoop => .next s.advance

end Sys2Proof.Machine
end

