-- ==== Sys2Proof/Machine/ControlFlow.lean ====
section
/-! DEFINITION. Control flow: return, jump, call, the register skips, Bnnn, unmatched words (spec/41_control_flow.md,
spec/40_cycle.md R98). -/

namespace Sys2Proof.Machine

/-- RET (R111). The baseline advance is applied after the pop (R96). -/
def execRet (s : State) : Result :=
  match s.pop with
  | none => raise .stackUnderflow s
  | some (w, s') => .next (s'.setPc (w + 2#16))

/-- JP addr (R112). -/
def execJp (nnn : Addr) (s : State) : Result := .next (s.setPc (addrValue nnn))

/-- CALL addr (R113). The address of the CALL itself is pushed. -/
def execCall (nnn : Addr) (s : State) : Result :=
  match s.push s.pc with
  | none => raise .stackOverflow s
  | some s' => .next (s'.setPc (addrValue nnn))

/-- SE Vx, byte (R116). -/
def execSeByte (x : Nibble) (nn : Byte) (s : State) : Result := .next (s.skipIf (s.getV x == nn))

/-- SNE Vx, byte (R117). -/
def execSneByte (x : Nibble) (nn : Byte) (s : State) : Result := .next (s.skipIf (s.getV x != nn))

/-- SE Vx, Vy (R118). -/
def execSeReg (x y : Nibble) (s : State) : Result := .next (s.skipIf (s.getV x == s.getV y))

/-- SNE Vx, Vy (R119). -/
def execSneReg (x y : Nibble) (s : State) : Result := .next (s.skipIf (s.getV x != s.getV y))

/-- JP V0, addr (R124); only decoded under BNNN_MODE = JUMP_V0. -/
def execJpV0 (nnn : Addr) (s : State) : Result := .next (s.setPc (addrValue nnn + byteValue (s.getV 0x0#4)))

/-- An unmatched word is a no-op with the baseline advance, whatever the word (R98). -/
def execUnmatched (_op : Word) (s : State) : Result := .next s.advance

end Sys2Proof.Machine
end

