-- ==== Sys2Proof/Machine/Framebuffer.lean ====
section
/-! DEFINITION. The framebuffer engine: clear and sprite draw (spec/44_display.md). -/

namespace Sys2Proof.Machine

/-- CLS (R210). -/
def execCls (s : State) : Result := .next (s.setDisp Display.clear).advance

/-- DRW Vx, Vy, nibble: both coordinates are read at the start, VF is written last (R212, R217). n = 0 draws nothing and
writes VF = 0 (R216). -/
def execDrw (x y n : Nibble) (s : State) : Result :=
  let drawn := drawSprite s.mem (s.dataAddr 0) (s.getV y).toNat (s.getV x).toNat n.toNat (s.disp, false)
  s.withBlock n.toNat ((s.setDisp drawn.1).setV vf (flagByte drawn.2)).advance

end Sys2Proof.Machine
end

