-- ==== Sys2Proof/Machine/IndexMemory.lean ====
section
/-! DEFINITION. The index register and the memory instructions (spec/43_index_memory.md). -/

namespace Sys2Proof.Machine

/-- LD I, addr (R180). -/
def execLdI (nnn : Addr) (s : State) : Result := .next (s.setI (addrValue nnn)).advance

/-- ADD I, Vx: mod 2^16, no flag, no mask (R183, R184). -/
def execAddI (x : Nibble) (s : State) : Result := .next (s.setI (s.i + byteValue (s.getV x))).advance

/-- LD F, Vx (R185). -/
def execLdF (x : Nibble) (s : State) : Result := .next (s.setI (glyphAddr (s.getV x))).advance

/-- LD B, Vx: the BCD digits at I, I + 1, I + 2 (R187). -/
def execLdB (x : Nibble) (s : State) : Result :=
  s.withBlock 3 (s.setMem (Memory.writeBlock s.mem (s.dataAddr 0) (bcdDigits (s.getV x)))).advance

/-- LD [I], Vx: V0 .. Vx to I .. I + x; I is not changed (R189, R190). -/
def execStoreRegs (x : Nibble) (s : State) : Result :=
  s.withBlock (x.toNat + 1) (s.setMem (Memory.writeBlock s.mem (s.dataAddr 0) (s.regsUpTo x))).advance

/-- LD Vx, [I]: I .. I + x to V0 .. Vx; I is not changed (R191, R190). -/
def execLoadRegs (x : Nibble) (s : State) : Result :=
  s.withBlock (x.toNat + 1) (s.fillRegs (s.dataAddr 0) (x.toNat + 1)).advance

end Sys2Proof.Machine
end

