-- ==== Sys2Proof/Machine/KeysTimers.lean ====
section
/-! DEFINITION. The key-latch and timer instructions (spec/45_keys_timers.md). -/

namespace Sys2Proof.Machine

/-- SKP Vx (R230). -/
def execSkp (x : Nibble) (s : State) : Result := s.keySkip x true

/-- SKNP Vx (R231). -/
def execSknp (x : Nibble) (s : State) : Result := s.keySkip x false

/-- LD Vx, K: the lowest pressed key; with none pressed nothing is written and pc stays (R235, R236). -/
def execLdVxK (x : Nibble) (s : State) : Result :=
  match s.lowestKey with
  | some k => .next (s.setV x (BitVec.ofNat 8 k)).advance
  | none => .next s

/-- LD Vx, DT (R240). -/
def execLdVxDt (x : Nibble) (s : State) : Result := .next (s.setV x s.dt).advance

/-- LD DT, Vx (R241). -/
def execLdDtVx (x : Nibble) (s : State) : Result := .next (s.setDt (s.getV x)).advance

/-- LD ST, Vx (R242). -/
def execLdStVx (x : Nibble) (s : State) : Result := .next (s.setSt (s.getV x)).advance

end Sys2Proof.Machine
end

