-- ==== Sys2Proof/Machine/HostPort.lean ====
section
/-! DEFINITION. The cycle (spec/40_cycle.md R90) and the host's other operations (spec/60_exceptions.md R262 to R278,
spec/70_reset_and_hazards.md R290 to R293). -/

namespace Sys2Proof.Machine

/-- One cycle: fetch, decode, execute (R90). It is not enabled while a fault is latched (R253). -/
def cycle (s : State) : Result :=
  match s.fault with
  | some kind => .fault (.halted kind)
  | none => if s.fetchOutOfRange then raise .addressOutOfRange s else exec (decode s.params s.fetchWord) s

/-- A timer after one tick: down by 1, floored at 0 (R262). -/
def tickDown (b : Byte) : Byte := if b = 0#8 then 0#8 else b - 1#8

/-- `tick`; not enabled while a fault is latched (R262, R253). -/
def tick (s : State) : Result :=
  match s.fault with
  | some kind => .fault (.halted kind)
  | none => .next ((s.setDt (tickDown s.dt)).setSt (tickDown s.st))

/-- `set_key`: writes one flag, or nothing when the index is outside 0..15 (R271). -/
def setKey (index : Int) (pressed : Bool) (s : State) : State :=
  if h : 0 ≤ index ∧ index < 16 then { s with key := s.key.set index.toNat pressed (by omega) } else s

/-- What `load_program` answers to the host (R270). -/
inductive LoadStatus where
  | ok
  | outOfBounds
  deriving DecidableEq, Repr

/-- The answer of `load_program` for a ROM of `len` bytes (R270). -/
def loadStatus (len : Nat) : LoadStatus :=
  if Config.memSize - Config.programBase < len then .outOfBounds else .ok

/-- The effect of `load_program`: the bytes from 0x200 on, or nothing when they do not fit (R270). -/
def loadProgram (bytes : List Byte) (s : State) : State :=
  match loadStatus bytes.length with
  | .ok => s.setMem (Memory.writeBlock s.mem Config.programBase bytes)
  | .outOfBounds => s

/-- Every field of the spec's state has its reset value (R35): the state right after `reset` (R290). -/
def atReset (s : State) : Bool :=
  s.fault == none && s.pc == BitVec.ofNat 16 Config.programBase && s.i == 0#16 && s.sp == 0 && s.dt == 0#8 && s.st == 0#8
    && s.mem == [] && s.v == Vector.replicate 16 0#8 && s.stack == Vector.replicate 16 0#16
    && s.key == Vector.replicate 16 false && s.disp == Display.clear

/-- What the boot's font write leaves: the image of FONT_IMAGE from 0x000 on, or nothing (R292). -/
def writeFont (s : State) : State :=
  match s.params.fontImage with
  | some image => s.setMem (Memory.writeBlock s.mem 0 image.toList)
  | none => s

/-- The boot's font write: it comes right after reset, before load_program and before any cycle (R292, R293), and the host
writes memory at no other time but by load_program (spec/20_memory.md R65; log entry 10). -/
def bootFont (s : State) : Result :=
  if atReset s then .next (writeFont s) else .fault .fontWriteOutsideBoot

/-- The sound output, ST ≠ 0 (R276). -/
def soundOutput (s : State) : Bool := s.st != 0#8

/-- What a read gives the host. -/
inductive Observation where
  | word (w : Word)
  | byte (b : Byte)
  | bit (c : Bool)
  | grid (d : Display)
  | latch (f : Option FaultKind)
  deriving DecidableEq, Repr

/-- The host's reads (R268, R269, R275, R276). -/
def observe (port : ReadPort) (s : State) : Observation :=
  match port with
  | .pc => .word s.pc
  | .reg x => .byte (s.getV x)
  | .soundTimer => .byte s.st
  | .soundOutput => .bit (soundOutput s)
  | .display => .grid s.disp
  | .fault => .latch s.fault

/-- One operation of the host, one atomic step (R265). A read changes nothing (R268). DEDUCED: a fault latched keeps only the
cycle and the tick from happening (R253; log entry 8). -/
def hostOp (op : HostOp) (s : State) : Result :=
  match op with
  | .reset => .next (resetBlock s)
  | .writeFont => bootFont s
  | .loadProgram bytes => .next (loadProgram bytes s)
  | .setKey index pressed => .next (setKey index pressed s)
  | .cycle => cycle s
  | .tick => tick s
  | .read _ => .next s

/-- The next step of the block: the first host operation listed, or a cycle when none is (R266; log entry 2). -/
def nextStep (s : State) : Result :=
  match s.pending with
  | [] => cycle s
  | op :: rest => hostOp op { s with pending := rest }

/-- The boot order (R293): reset, the font image, the program. -/
def bootOps (rom : List Byte) : List HostOp := [.reset, .writeFont, .loadProgram rom]

/-- The state with an instruction word stored at pc, made ready for that instruction to be the next step: no host
operation before it, no fault latched, and for a word of family 0xB the parameter value that selects its row. At a pc that
no cycle can fetch from (R91) there is nowhere to store it. -/
def placeWord (s : State) (op : Word) : State :=
  { s with
    mem := if s.fetchOutOfRange then s.mem else Memory.writeBlock s.mem s.pc.toNat (wordBytes op)
    fault := none
    pending := []
    params := if Field.family op = 0xB#4 then { s.params with bnnnMode := .jumpV0 } else s.params }

end Sys2Proof.Machine
end

