-- ==== Sys2Proof/Safety.lean ====
section
/-! DEFINITION. The terms that statements about the machine use: what stays unchanged, the spec's tables of what each
instruction reads, writes and faults on, the invariants, and the host's schedules. -/

namespace Sys2Proof.Machine

/-! ### What stays unchanged -/

/-- The parts of the state. -/
inductive Part where
  | mem | v | i | pc | stack | sp | dt | st | disp | key | fault | params | draws | pending
  deriving DecidableEq, Repr

/-- One part has the same contents in two states; memory is compared by its read of every byte. -/
def SamePart (s t : State) : Part → Prop
  | .mem => ∀ a, Memory.read t.mem a = Memory.read s.mem a
  | .v => t.v = s.v
  | .i => t.i = s.i
  | .pc => t.pc = s.pc
  | .stack => t.stack = s.stack
  | .sp => t.sp = s.sp
  | .dt => t.dt = s.dt
  | .st => t.st = s.st
  | .disp => t.disp = s.disp
  | .key => t.key = s.key
  | .fault => t.fault = s.fault
  | .params => t.params = s.params
  | .draws => t.draws = s.draws
  | .pending => t.pending = s.pending

/-- Every part but the listed ones is unchanged from `s` to `t` (the frame rule, spec/40_cycle.md R94). -/
def Keeps (but : List Part) (s t : State) : Prop := ∀ p, p ∉ but → SamePart s t p

/-- From `s` to `t`, Vx receives `b`, pc advances by 2, and nothing else changes. -/
def WritesOneReg (x : Nibble) (b : Byte) (s t : State) : Prop :=
  t.getV x = b ∧ (∀ z, z ≠ x → t.getV z = s.getV z) ∧ t.pc = s.pc + 2#16 ∧ Keeps [.v, .pc] s t

/-- From `s` to `t`, no V register but Vx and VF changes, pc advances by 2, and nothing else changes. -/
def WritesRegAndFlag (x : Nibble) (s t : State) : Prop :=
  (∀ z, z ≠ x → z ≠ vf → t.getV z = s.getV z) ∧ t.pc = s.pc + 2#16 ∧ Keeps [.v, .pc] s t

/-! ### The spec's tables -/

/-- The fault that an instruction raises, if any: the table of spec/60_exceptions.md R250. -/
def faultCondition (i : Instr) (s : State) : Option FaultKind :=
  match i with
  | .call _ => if s.sp.val = 16 then some .stackOverflow else none
  | .ret => if s.sp.val = 0 then some .stackUnderflow else none
  | .drw _ _ n => if 0 < n.toNat ∧ 4096 ≤ s.i.toNat + n.toNat - 1 then some .dataAddressOutOfRange else none
  | .ldB _ => if 4096 ≤ s.i.toNat + 2 then some .dataAddressOutOfRange else none
  | .storeRegs x | .loadRegs x => if 4096 ≤ s.i.toNat + x.toNat then some .dataAddressOutOfRange else none
  | .skp x | .sknp x =>
    if 15 < (s.getV x).toNat ∧ s.params.keyIndexOor = .fault then some .keyIndexOutOfRange else none
  | _ => none

/-- The next pc of an instruction that raises no fault: the table of spec/40_cycle.md R95. -/
def nextPc (i : Instr) (s : State) : Word :=
  match i with
  | .jp nnn | .call nnn => nnn.zeroExtend 16
  | .ret => s.stack[s.sp.val - 1]?.getD 0#16 + 2#16
  | .seByte x nn => if s.getV x = nn then s.pc + 4#16 else s.pc + 2#16
  | .sneByte x nn => if s.getV x ≠ nn then s.pc + 4#16 else s.pc + 2#16
  | .seReg x y => if s.getV x = s.getV y then s.pc + 4#16 else s.pc + 2#16
  | .sneReg x y => if s.getV x ≠ s.getV y then s.pc + 4#16 else s.pc + 2#16
  | .skp x => if s.key[(s.getV x).toNat]? = some true then s.pc + 4#16 else s.pc + 2#16
  | .sknp x => if s.key[(s.getV x).toNat]? = some false then s.pc + 4#16 else s.pc + 2#16
  | .ldVxK _ => if ∃ k : Fin 16, s.key[k.val] = true then s.pc + 2#16 else s.pc
  | .jpV0 nnn => nnn.zeroExtend 16 + (s.getV 0x0#4).zeroExtend 16
  | _ => s.pc + 2#16

/-- "jump/call/return/skip/wait-for-key" (spec/40_cycle.md R97), and the jump Bnnn of BNNN_MODE = JUMP_V0. -/
def isControlFlow (i : Instr) : Bool :=
  match i with
  | .jp _ | .call _ | .ret | .seByte _ _ | .sneByte _ _ | .seReg _ _ | .sneReg _ _ | .skp _ | .sknp _ | .ldVxK _
  | .jpV0 _ => true
  | _ => false

/-- Whether an instruction may write Vz: the "Writes V" column of spec/10_state.md R24. -/
def writesV (i : Instr) (z : Nibble) : Bool :=
  match i with
  | .ldByte x _ | .addByte x _ | .ldReg x _ | .orReg x _ | .andReg x _ | .xorReg x _ | .rnd x _ | .ldVxDt x
  | .ldVxK x => z == x
  | .addReg x _ | .sub x _ | .shr x _ | .subn x _ | .shl x _ => z == x || z == vf
  | .drw _ _ _ => z == vf
  | .loadRegs x => decide (z.toNat ≤ x.toNat)
  | _ => false

/-- The instructions that write VF as a side effect: 8xy4, 8xy5, 8xy6, 8xy7, 8xyE and Dxyn (spec/10_state.md R23). -/
def isFlagWriter (i : Instr) : Bool :=
  match i with
  | .addReg _ _ | .sub _ _ | .shr _ _ | .subn _ _ | .shl _ _ | .drw _ _ _ => true
  | _ => false

/-- VF is the destination register: x = 0xF in 6xnn, 7xnn, 8xy0 to 8xy3, Cxnn, Fx07, Fx0A or Fx65 (spec/10_state.md R23). -/
def destinationIsVf (i : Instr) : Bool :=
  match i with
  | .ldByte x _ | .addByte x _ | .ldReg x _ | .orReg x _ | .andReg x _ | .xorReg x _ | .rnd x _ | .ldVxDt x
  | .ldVxK x | .loadRegs x => x == vf
  | _ => false

/-- Whether an instruction stores to an address: the "Writes" column of spec/20_memory.md R53. -/
def storesTo (i : Instr) (s : State) (a : Nat) : Bool :=
  match i with
  | .ldB _ => decide (s.dataAddr 0 ≤ a) && decide (a ≤ s.dataAddr 2)
  | .storeRegs x => decide (s.dataAddr 0 ≤ a) && decide (a ≤ s.dataAddr x.toNat)
  | _ => false

/-- A set bit of the sprite of DRW Vx, Vy, n lands on the pixel at row `r` and column `c`: bit 7 of a byte is the
leftmost pixel, and both coordinates wrap (spec/44_display.md R212 to R214). -/
def SpriteCovers (s : State) (x y n : Nibble) (r : Fin 32) (c : Fin 64) : Prop :=
  ∃ k j : Nat, k < n.toNat ∧ j < 8 ∧ (Memory.read s.mem (s.i.toNat + k)).getLsbD (7 - j) = true
    ∧ r.val = ((s.getV y).toNat + k) % 32 ∧ c.val = ((s.getV x).toNat + j) % 64

/-- The state with the parameter VF_ORDER set (spec/42_alu.md R150). -/
def withOrder (s : State) (o : VfOrder) : State := { s with params := { s.params with vfOrder := o } }

/-! ### Invariants -/

/-- Memory is in its canonical form: addresses rise and lie below 4096, and no zero is listed. -/
def MemoryCanonical (s : State) : Prop := Memory.wf s.mem = true

/-- The bounds on pc of spec/10_state.md R27, with the bound on pushed return addresses that they rest on. -/
def PcBounded (s : State) : Prop :=
  (s.params.bnnnMode = .unmatched → s.pc.toNat ≤ 0x1002) ∧ s.pc.toNat ≤ 0x10FE
    ∧ ∀ k : Fin 16, k.val < s.sp.val → (s.stack[k.val]).toNat ≤ 0xFFE

/-! ### The host -/

/-- The block as the host finds it before its first operation: the reset state, with any parameters, any schedule and any
position in the sequence of random bytes. -/
def bootState (p : Params) (ops : List HostOp) (d : Nat) : State :=
  { State.reset with params := p, pending := ops, draws := d }

/-- A finished run: no fault, and the instruction at pc is a jump to itself (spec/60_exceptions.md R283). -/
def Finished (s : State) : Prop :=
  s.fault = none ∧ s.pc.toNat < 0xFFF ∧ ∃ nnn : Addr, decode s.params s.fetchWord = .jp nnn ∧ nnn.zeroExtend 16 = s.pc

/-- One frame of the source's driver: key writes, N cycles, one tick, one display read (spec/60_exceptions.md R267). -/
def frameOps (n : Nat) (keys : List (Int × Bool)) : List HostOp :=
  keys.map (fun k => .setKey k.1 k.2) ++ List.replicate n .cycle ++ [.tick, .read .display]

/-- The schedules that CYCLES_PER_FRAME admits: any when it is OPEN, repetitions of the frame when it is N (R267). -/
def AdmittedSchedule (cyclesPerFrame : Option Nat) (ops : List HostOp) : Prop :=
  match cyclesPerFrame with
  | none => True
  | some n => ∃ frames : List (List (Int × Bool)), ops = (frames.map (frameOps n)).flatten

end Sys2Proof.Machine
end

