-- ==== Sys2Proof/Certificates/Slice0/Obligations.lean ====
section
/-! DEFINITION. The statements for the provers. Each docstring names the rule of spec/ that it formalises. -/

open Sys2Proof Sys2Proof.Machine

/-! ### Encoding (spec/30_encoding.md) -/

/-- R72, R74: for every value of the parameters, decoding the word of a well-formed instruction gives it back. -/
def Obligations.DecodeInvertsEncode : Prop :=
  ∀ (p : Params) (i : Instr), i.wellFormed p = true → decode p (encode i) = i

/-- R72, R74, R75: under LOW_NIBBLE_5_9 = STRICT every word is the word of the instruction it decodes to, so no bit of any
word is dropped. -/
def Obligations.EncodeInvertsDecodeUnderStrict : Prop :=
  ∀ (p : Params) (op : Word), p.lowNibble = .strict → encode (decode p op) = op

/-- R74, R76: the decoder gives well-formed instructions only. -/
def Obligations.DecodedInstructionIsWellFormed : Prop :=
  ∀ (p : Params) (op : Word), (decode p op).wellFormed p = true

/-- R76 and R98: with the default parameters the unmatched words are exactly the listed ones, and each executes as a no-op:
pc advances by 2 and nothing else changes, whatever the state. -/
def Obligations.UnmatchedWordsAreTheListedNoOps : Prop :=
  (∀ op : Word, decode defaultParams op = .unmatched op ↔
    (op.toNat < 0x1000 ∧ op ≠ 0x00E0#16 ∧ op ≠ 0x00EE#16)
      ∨ ((op.toNat / 0x1000 = 5 ∨ op.toNat / 0x1000 = 9) ∧ op.toNat % 16 ≠ 0)
      ∨ (op.toNat / 0x1000 = 8 ∧ ((8 ≤ op.toNat % 16 ∧ op.toNat % 16 ≤ 0xD) ∨ op.toNat % 16 = 0xF))
      ∨ op.toNat / 0x1000 = 0xB
      ∨ (op.toNat / 0x1000 = 0xE ∧ op.toNat % 256 ≠ 0x9E ∧ op.toNat % 256 ≠ 0xA1)
      ∨ (op.toNat / 0x1000 = 0xF
          ∧ op.toNat % 256 ∉ [0x07, 0x0A, 0x15, 0x18, 0x1E, 0x29, 0x33, 0x55, 0x65]))
    ∧ ∀ (op : Word) (s : State), exec (.unmatched op) s = .next { s with pc := s.pc + 2#16 }

/-- R120: the words 5xyN and 9xyN with N ≠ 0 are unmatched under STRICT (pc + 2, nothing else); under IGNORE they execute
R118 and R119 with N disregarded. -/
def Obligations.LowNibbleDecidesFamiliesFiveAndNine : Prop :=
  ∀ (s : State) (x y n : Nibble), n ≠ 0#4 →
    (s.params.lowNibble = .strict →
      decode s.params (Layout.xyn 0x5#4 x y n) = .unmatched (Layout.xyn 0x5#4 x y n)
        ∧ decode s.params (Layout.xyn 0x9#4 x y n) = .unmatched (Layout.xyn 0x9#4 x y n)
        ∧ exec (decode s.params (Layout.xyn 0x5#4 x y n)) s = .next { s with pc := s.pc + 2#16 }
        ∧ exec (decode s.params (Layout.xyn 0x9#4 x y n)) s = .next { s with pc := s.pc + 2#16 })
    ∧ (s.params.lowNibble = .ignore →
        decode s.params (Layout.xyn 0x5#4 x y n) = .seReg x y
        ∧ decode s.params (Layout.xyn 0x9#4 x y n) = .sneReg x y
        ∧ exec (decode s.params (Layout.xyn 0x5#4 x y n)) s
            = .next { s with pc := if s.getV x = s.getV y then s.pc + 4#16 else s.pc + 2#16 }
        ∧ exec (decode s.params (Layout.xyn 0x9#4 x y n)) s
            = .next { s with pc := if s.getV x = s.getV y then s.pc + 2#16 else s.pc + 4#16 })

/-- R124: a word Bnnn is an unmatched no-op under UNMATCHED, and under JUMP_V0 the jump to nnn + V0 with no baseline
advance. -/
def Obligations.BnnnModeDecidesFamilyB : Prop :=
  ∀ (s : State) (nnn : Addr),
    (s.params.bnnnMode = .unmatched →
      exec (decode s.params (Layout.nnn 0xB#4 nnn)) s = .next { s with pc := s.pc + 2#16 })
    ∧ (s.params.bnnnMode = .jumpV0 → decode s.params (Layout.nnn 0xB#4 nnn) = .jpV0 nnn)
    ∧ ∃ t, exec (.jpV0 nnn) s = .next t ∧ t.pc.toNat = nnn.toNat + (s.getV 0x0#4).toNat ∧ Keeps [.pc] s t

/-- R74: the decoder selects a row of spec/opcode_table.json that the word matches under the row's mask; an unmatched word
matches, of the rows that `p` selects, none but the last. -/
def Obligations.DecodeSelectsATableRow : Prop :=
  ∀ (p : Params) (op : Word), p.lowNibble = .strict →
    op &&& (decode p op).row.2 = (decode p op).row.1
      ∧ ∀ i : Instr, i.wellFormed p = true → i.row.2 ≠ 0#16 → op &&& i.row.2 = i.row.1 → (decode p op).row = i.row

/-- R74 on nine words written out bit by bit from the encodings of R72, of families 0, 2, 4, 8, C, D, E and F. -/
def Obligations.WrittenOutWordsDecode : Prop :=
  decode defaultParams 0b0000000011100000#16 = .cls
    ∧ decode defaultParams 0b0000000011101110#16 = .ret
    ∧ decode defaultParams 0b0010001100000000#16 = .call 0x300#12
    ∧ decode defaultParams 0b0100001101000010#16 = .sneByte 0x3#4 0x42#8
    ∧ decode defaultParams 0b1000000100100101#16 = .sub 0x1#4 0x2#4
    ∧ decode defaultParams 0b1100001100001111#16 = .rnd 0x3#4 0x0F#8
    ∧ decode defaultParams 0b1101000000010010#16 = .drw 0x0#4 0x1#4 0x2#4
    ∧ decode defaultParams 0b1110010110100001#16 = .sknp 0x5#4
    ∧ decode defaultParams 0b1111000101010101#16 = .storeRegs 0x1#4

/-! ### The cycle (spec/40_cycle.md) and faults (spec/60_exceptions.md) -/

/-- R90, R50: with no fault latched and pc at most 0xFFE, the two bytes at pc form the word, the first the high byte; when
they decode to `i`, a step that is a cycle is exec of `i`. The cycle adds nothing around exec; taking it from the host's
schedule removes it from the schedule. -/
def Obligations.StepRunsDecodedInstruction : Prop :=
  ∀ (s : State) (i : Instr), s.fault = none → s.pc.toNat < 0xFFF →
    decodeBytes s.params [Memory.read s.mem s.pc.toNat, Memory.read s.mem (s.pc.toNat + 1)] = .ok (i, []) →
    s.fetchWord.toNat = (Memory.read s.mem s.pc.toNat).toNat * 256 + (Memory.read s.mem (s.pc.toNat + 1)).toNat
      ∧ (s.pending = [] → step s = exec i s)
      ∧ ∀ rest, s.pending = .cycle :: rest → step s = exec i { s with pending := rest }

/-- R91: a fetch with PC ≥ 4096 or PC + 1 ≥ 4096 latches AddressOutOfRange and changes no other state; at pc = 0xFFE and
below the cycle executes the word that the bytes at PC and PC + 1 form, the first the high byte. -/
def Obligations.FetchPastTheEndLatchesAddressFault : Prop :=
  ∀ s : State, s.fault = none →
    ((4096 ≤ s.pc.toNat ∨ 4096 ≤ s.pc.toNat + 1) →
      cycle s = .next { s with fault := some .addressOutOfRange })
    ∧ (s.pc.toNat ≤ 0xFFE →
        s.fetchWord.toNat = (Memory.read s.mem s.pc.toNat).toNat * 256 + (Memory.read s.mem (s.pc.toNat + 1)).toNat
        ∧ cycle s = exec (decode s.params s.fetchWord) s)

/-- R253, R32: while a fault is latched the block takes no cycle step and no tick step; the host may still read and may
reset, which clears the latch and is the only operation that does. The stop is Fault.halted (the model's form of "no step",
log entry 4). -/
def Obligations.HaltedBlockTakesNoCycleOrTick : Prop :=
  ∀ (s : State) (k : FaultKind), s.fault = some k →
    (s.pending = [] → step s = .fault (.halted k))
    ∧ (∀ rest, s.pending = .cycle :: rest → step s = .fault (.halted k))
    ∧ (∀ rest, s.pending = .tick :: rest → step s = .fault (.halted k))
    ∧ (∀ port rest, s.pending = .read port :: rest → step s = .next { s with pending := rest })
    ∧ (∀ rest, s.pending = .reset :: rest → ∃ t, step s = .next t ∧ t.fault = none)
    ∧ ∀ (op : HostOp) (t : State), hostOp op s = .next t → t.fault ≠ s.fault → op = .reset

/-- R250, R251, R252, R254: an instruction raises exactly the fault that the table of R250 gives it; raising it writes the
fault latch and nothing else; otherwise the instruction completes and leaves the latch alone. -/
def Obligations.FaultsExactlyWhereTheTableSays : Prop :=
  ∀ (i : Instr) (s : State),
    (∀ k, faultCondition i s = some k → exec i s = .next { s with fault := some k })
    ∧ (faultCondition i s = none → ∃ t, exec i s = .next t ∧ t.fault = s.fault)

/-- R95: the next pc of every instruction that raises no fault. -/
def Obligations.NextPcFollowsTheTable : Prop :=
  ∀ (i : Instr) (s t : State), faultCondition i s = none → exec i s = .next t → t.pc = nextPc i s

/-- R97: every instruction but jump, call, return, skip and wait-for-key leaves pc plus exactly 2 (a cycle that faults
leaves pc, R252). -/
def Obligations.PlainInstructionsAdvanceByTwo : Prop :=
  ∀ (s t : State), s.fault = none → s.pc.toNat < 0xFFF → isControlFlow (decode s.params s.fetchWord) = false →
    cycle s = .next t → t.fault = none → t.pc = s.pc + 2#16

/-! ### What each kind of state is written by -/

/-- R24, R22: an instruction writes only the V registers of the "Writes V" column. -/
def Obligations.RegistersWrittenFollowTheTable : Prop :=
  ∀ (i : Instr) (s t : State) (z : Nibble), exec i s = .next t → writesV i z = false → t.getV z = s.getV z

/-- R23: VF is written only by 8xy4, 8xy5, 8xy6, 8xy7, 8xyE and Dxyn, and by an instruction whose destination it is. -/
def Obligations.VfWrittenOnlyAsFlagOrDestination : Prop :=
  ∀ (i : Instr) (s t : State), exec i s = .next t → isFlagWriter i = false → destinationIsVf i = false →
    t.getV vf = s.getV vf

/-- R53, R65: of the instructions only Fx33 and Fx55 store, to I .. I+2 and to I .. I+x; every other byte of memory reads as
before. Of the host's operations, but for a cycle and the reset, only load_program writes memory, and the boot's font write of
R292, which in the state right after reset writes 0x000 to 0x04F at most and in any other state is not taken
(Fault.fontWriteOutsideBoot: the model's form, log entry 10). -/
def Obligations.MemoryWrittenOnlyByFx33AndFx55 : Prop :=
  (∀ (i : Instr) (s t : State) (a : Nat), MemoryCanonical s → exec i s = .next t → storesTo i s a = false →
    Memory.read t.mem a = Memory.read s.mem a)
    ∧ (∀ (op : HostOp) (s t : State) (a : Nat), hostOp op s = .next t → Memory.read t.mem a ≠ Memory.read s.mem a →
        op = .cycle ∨ op = .reset ∨ (∃ bytes, op = .loadProgram bytes) ∨ (op = .writeFont ∧ resetBlock s = s ∧ a < 80))
    ∧ ∀ s : State, resetBlock s ≠ s → hostOp .writeFont s = .fault .fontWriteOutsideBoot

/-- R30: only 00E0 and Dxyn write the framebuffer. -/
def Obligations.DisplayWrittenOnlyByClsAndDrw : Prop :=
  ∀ (i : Instr) (s t : State), exec i s = .next t → t.disp ≠ s.disp → i = .cls ∨ ∃ x y n, i = .drw x y n

/-- R243: of the instructions only Fx15 changes DT and only Fx18 changes ST, so a cycle decrements neither; of the host's
operations only a cycle, a tick and a reset change a timer. -/
def Obligations.TimersWrittenOnlyByTheirInstructions : Prop :=
  (∀ (i : Instr) (s t : State), exec i s = .next t →
    (t.dt ≠ s.dt → ∃ x, i = .ldDtVx x) ∧ (t.st ≠ s.st → ∃ x, i = .ldStVx x))
    ∧ ∀ (op : HostOp) (s t : State), hostOp op s = .next t → (t.dt ≠ s.dt ∨ t.st ≠ s.st) →
        op = .cycle ∨ op = .tick ∨ op = .reset

/-- R31: no instruction writes the key latch. The model's own fields, the parameters and the host's schedule, are not
written either, and the count of random draws only by Cxnn (log entries 1 to 3). -/
def Obligations.KeyLatchNeverWrittenByInstructions : Prop :=
  ∀ (i : Instr) (s t : State), exec i s = .next t →
    t.key = s.key ∧ t.params = s.params ∧ t.pending = s.pending ∧ (t.draws ≠ s.draws → ∃ x nn, i = .rnd x nn)

/-- R28: only 2nnn and 00EE touch SP, and only 2nnn an entry of the stack; SP stays at most 16. -/
def Obligations.StackTouchedOnlyByCallAndRet : Prop :=
  ∀ (i : Instr) (s t : State), exec i s = .next t →
    (t.sp ≠ s.sp → i = .ret ∨ ∃ nnn, i = .call nnn) ∧ (t.stack ≠ s.stack → ∃ nnn, i = .call nnn) ∧ t.sp.val ≤ 16

/-- R25, R190: only Annn, Fx1E and Fx29 write I. -/
def Obligations.IndexRegisterWrittenOnlyByThree : Prop :=
  ∀ (i : Instr) (s t : State), exec i s = .next t → t.i ≠ s.i →
    (∃ nnn, i = .ldI nnn) ∨ (∃ x, i = .addI x) ∨ ∃ x, i = .ldF x

/-! ### Control flow (spec/41_control_flow.md) -/

/-- R111: RET, both outcomes. -/
def Obligations.RetPopsAndAdvances : Prop :=
  ∀ s : State, (∀ p, decode p 0x00EE#16 = .ret)
    ∧ (s.sp.val = 0 → exec .ret s = .next { s with fault := some .stackUnderflow })
    ∧ ∀ (k : Nat) (hk : k < 16), s.sp.val = k + 1 →
        ∃ t, exec .ret s = .next t ∧ t.sp.val = k ∧ t.pc.toNat = ((s.stack[k]).toNat + 2) % 2 ^ 16
          ∧ Keeps [.sp, .pc] s t

/-- R112: JP addr. -/
def Obligations.JpSetsPc : Prop :=
  ∀ (s : State) (nnn : Addr), (∀ p, decode p (Layout.nnn 0x1#4 nnn) = .jp nnn)
    ∧ exec (.jp nnn) s = .next { s with pc := nnn.zeroExtend 16 }

/-- R113: CALL addr, both outcomes. -/
def Obligations.CallPushesItsOwnAddress : Prop :=
  ∀ (s : State) (nnn : Addr), (∀ p, decode p (Layout.nnn 0x2#4 nnn) = .call nnn)
    ∧ (s.sp.val = 16 → exec (.call nnn) s = .next { s with fault := some .stackOverflow })
    ∧ ∀ h : s.sp.val < 16, ∃ t, exec (.call nnn) s = .next t ∧ t.stack[s.sp.val] = s.pc
        ∧ (∀ (j : Nat) (hj : j < 16), j ≠ s.sp.val → t.stack[j] = s.stack[j])
        ∧ t.sp.val = s.sp.val + 1 ∧ t.pc = nnn.zeroExtend 16 ∧ Keeps [.stack, .sp, .pc] s t

/-- R114: a CALL at address `a`, then instructions that do not touch the stack, then a RET: back to a + 2, with SP at its
value before the CALL. -/
def Obligations.CallThenRetReturns : Prop :=
  ∀ (s t u : State) (nnn : Addr), s.sp.val < 16 → exec (.call nnn) s = .next t →
    u.stack = t.stack → u.sp = t.sp →
    ∃ w, exec .ret u = .next w ∧ w.pc = s.pc + 2#16 ∧ w.sp = s.sp

/-- R116, R117: the skips on a byte. -/
def Obligations.SkipsOnByte : Prop :=
  ∀ (s : State) (x : Nibble) (nn : Byte),
    (∀ p, decode p (Layout.xnn 0x3#4 x nn) = .seByte x nn) ∧ (∀ p, decode p (Layout.xnn 0x4#4 x nn) = .sneByte x nn)
    ∧ (s.getV x = nn → exec (.seByte x nn) s = .next { s with pc := s.pc + 4#16 }
        ∧ exec (.sneByte x nn) s = .next { s with pc := s.pc + 2#16 })
    ∧ (s.getV x ≠ nn → exec (.seByte x nn) s = .next { s with pc := s.pc + 2#16 }
        ∧ exec (.sneByte x nn) s = .next { s with pc := s.pc + 4#16 })

/-- R118, R119: the skips on two registers. -/
def Obligations.SkipsOnRegisters : Prop :=
  ∀ (s : State) (x y : Nibble),
    (∀ p, decode p (Layout.xyn 0x5#4 x y 0x0#4) = .seReg x y) ∧ (∀ p, decode p (Layout.xyn 0x9#4 x y 0x0#4) = .sneReg x y)
    ∧ (s.getV x = s.getV y → exec (.seReg x y) s = .next { s with pc := s.pc + 4#16 }
        ∧ exec (.sneReg x y) s = .next { s with pc := s.pc + 2#16 })
    ∧ (s.getV x ≠ s.getV y → exec (.seReg x y) s = .next { s with pc := s.pc + 2#16 }
        ∧ exec (.sneReg x y) s = .next { s with pc := s.pc + 4#16 })

/-! ### ALU (spec/42_alu.md) -/

/-- R140, R141: LD Vx, byte and ADD Vx, byte. Only Vx changes, so VF only when it is Vx. -/
def Obligations.ImmediateLoadAndAdd : Prop :=
  ∀ (s : State) (x : Nibble) (nn : Byte),
    (∀ p, decode p (Layout.xnn 0x6#4 x nn) = .ldByte x nn) ∧ (∀ p, decode p (Layout.xnn 0x7#4 x nn) = .addByte x nn)
    ∧ (∃ t, exec (.ldByte x nn) s = .next t ∧ WritesOneReg x nn s t)
    ∧ ∃ t b, exec (.addByte x nn) s = .next t ∧ WritesOneReg x b s t ∧ b.toNat = ((s.getV x).toNat + nn.toNat) % 256

/-- R142, R143, R144, R145: LD, OR, AND, XOR of two registers. Only Vx changes. -/
def Obligations.MoveAndLogic : Prop :=
  ∀ (s : State) (x y : Nibble),
    (∀ p, decode p (Layout.xyn 0x8#4 x y 0x0#4) = .ldReg x y ∧ decode p (Layout.xyn 0x8#4 x y 0x1#4) = .orReg x y
      ∧ decode p (Layout.xyn 0x8#4 x y 0x2#4) = .andReg x y ∧ decode p (Layout.xyn 0x8#4 x y 0x3#4) = .xorReg x y)
    ∧ (∃ t, exec (.ldReg x y) s = .next t ∧ WritesOneReg x (s.getV y) s t)
    ∧ (∃ t, exec (.orReg x y) s = .next t ∧ WritesOneReg x (s.getV x ||| s.getV y) s t)
    ∧ (∃ t, exec (.andReg x y) s = .next t ∧ WritesOneReg x (s.getV x &&& s.getV y) s t)
    ∧ ∃ t, exec (.xorReg x y) s = .next t ∧ WritesOneReg x (s.getV x ^^^ s.getV y) s t

/-- R151: ADD Vx, Vy, under both values of VF_ORDER. VF ends as the carry, also when x = 0xF. -/
def Obligations.AddSetsCarry : Prop :=
  ∀ (s : State) (x y : Nibble), (∀ p, decode p (Layout.xyn 0x8#4 x y 0x4#4) = .addReg x y)
    ∧ ∃ t, exec (.addReg x y) s = .next t ∧ WritesRegAndFlag x s t
      ∧ (x ≠ vf → (t.getV x).toNat = ((s.getV x).toNat + (s.getV y).toNat) % 256)
      ∧ (t.getV vf).toNat = if (s.getV x).toNat + (s.getV y).toNat > 255 then 1 else 0

/-- R152: SUB Vx, Vy, under both values of VF_ORDER. Under SEQUENTIAL the difference is of the registers after the flag's
write: an operand that is VF reads as the flag. -/
def Obligations.SubSetsNotBorrow : Prop :=
  ∀ (s : State) (x y : Nibble) (f : Byte), f = (if (s.getV y).toNat ≤ (s.getV x).toNat then 1#8 else 0#8) →
    (∀ p, decode p (Layout.xyn 0x8#4 x y 0x5#4) = .sub x y)
    ∧ ∃ t, exec (.sub x y) s = .next t ∧ WritesRegAndFlag x s t
      ∧ (s.params.vfOrder = .flagLast →
          t.getV vf = f ∧ (x ≠ vf → (t.getV x).toNat = ((s.getV x).toNat + 256 - (s.getV y).toNat) % 256))
      ∧ (s.params.vfOrder = .sequential →
          (x ≠ vf → t.getV vf = f)
          ∧ (t.getV x).toNat = ((if x = vf then f else s.getV x).toNat + 256
              - (if y = vf then f else s.getV y).toNat) % 256)

/-- R153: SHR Vx, under both values of VF_ORDER; Vy is not read, whatever y. -/
def Obligations.ShrSetsBitShiftedOut : Prop :=
  ∀ (s : State) (x y : Nibble) (f : Byte), f.toNat = (s.getV x).toNat % 2 →
    (∀ p, decode p (Layout.xyn 0x8#4 x y 0x6#4) = .shr x y)
    ∧ ∃ t, exec (.shr x y) s = .next t ∧ WritesRegAndFlag x s t
      ∧ (s.params.vfOrder = .flagLast → t.getV vf = f ∧ (x ≠ vf → (t.getV x).toNat = (s.getV x).toNat / 2))
      ∧ (s.params.vfOrder = .sequential →
          (x ≠ vf → t.getV vf = f ∧ (t.getV x).toNat = (s.getV x).toNat / 2) ∧ (x = vf → t.getV vf = 0#8))

/-- R154: SUBN Vx, Vy, under both values of VF_ORDER. -/
def Obligations.SubnSetsNotBorrow : Prop :=
  ∀ (s : State) (x y : Nibble) (f : Byte), f = (if (s.getV x).toNat ≤ (s.getV y).toNat then 1#8 else 0#8) →
    (∀ p, decode p (Layout.xyn 0x8#4 x y 0x7#4) = .subn x y)
    ∧ ∃ t, exec (.subn x y) s = .next t ∧ WritesRegAndFlag x s t
      ∧ (s.params.vfOrder = .flagLast →
          t.getV vf = f ∧ (x ≠ vf → (t.getV x).toNat = ((s.getV y).toNat + 256 - (s.getV x).toNat) % 256))
      ∧ (s.params.vfOrder = .sequential →
          (x ≠ vf → t.getV vf = f)
          ∧ (t.getV x).toNat = ((if y = vf then f else s.getV y).toNat + 256
              - (if x = vf then f else s.getV x).toNat) % 256)

/-- R155: SHL Vx, under both values of VF_ORDER; Vy is not read, whatever y. -/
def Obligations.ShlSetsBitShiftedOut : Prop :=
  ∀ (s : State) (x y : Nibble) (f : Byte), f.toNat = (s.getV x).toNat / 128 →
    (∀ p, decode p (Layout.xyn 0x8#4 x y 0xE#4) = .shl x y)
    ∧ ∃ t, exec (.shl x y) s = .next t ∧ WritesRegAndFlag x s t
      ∧ (s.params.vfOrder = .flagLast → t.getV vf = f ∧ (x ≠ vf → (t.getV x).toNat = (s.getV x).toNat * 2 % 256))
      ∧ (s.params.vfOrder = .sequential →
          (x ≠ vf → t.getV vf = f ∧ (t.getV x).toNat = (s.getV x).toNat * 2 % 256)
          ∧ (x = vf → (t.getV vf).toNat = 2 * f.toNat))

/-- R150: when neither x nor y is 0xF, both values of VF_ORDER give the same result; for 8xy4 always. -/
def Obligations.VfOrdersAgreeWithoutVf : Prop :=
  ∀ (s : State) (x y : Nibble),
    (∃ t, ∀ o, exec (.addReg x y) (withOrder s o) = .next (withOrder t o))
    ∧ (x ≠ vf → y ≠ vf →
        (∃ t, ∀ o, exec (.sub x y) (withOrder s o) = .next (withOrder t o))
        ∧ (∃ t, ∀ o, exec (.subn x y) (withOrder s o) = .next (withOrder t o))
        ∧ (∃ t, ∀ o, exec (.shr x y) (withOrder s o) = .next (withOrder t o))
        ∧ ∃ t, ∀ o, exec (.shl x y) (withOrder s o) = .next (withOrder t o))

/-- R160, R161: RND Vx, byte writes the next random byte ANDed with nn, for every sequence of random bytes; every bit of
the result outside nn is 0. The random byte is the free value of log entry 1. -/
def Obligations.RndMasksAFreeByte : Prop :=
  ∀ (s : State) (x : Nibble) (nn : Byte), (∀ p, decode p (Layout.xnn 0xC#4 x nn) = .rnd x nn)
    ∧ ∃ t, exec (.rnd x nn) s = .next t ∧ t.getV x = Config.randomByte s.draws &&& nn
      ∧ (∀ j, nn.getLsbD j = false → (t.getV x).getLsbD j = false)
      ∧ (∀ z, z ≠ x → t.getV z = s.getV z) ∧ t.pc = s.pc + 2#16 ∧ t.draws = s.draws + 1
      ∧ Keeps [.v, .pc, .draws] s t

/-! ### Index register and memory (spec/43_index_memory.md) -/

/-- R180, R183, R185: LD I, addr; ADD I, Vx; LD F, Vx. -/
def Obligations.IndexRegisterResults : Prop :=
  ∀ (s : State) (x : Nibble) (nnn : Addr),
    (∀ p, decode p (Layout.nnn 0xA#4 nnn) = .ldI nnn ∧ decode p (Layout.xnn 0xF#4 x 0x1E#8) = .addI x
      ∧ decode p (Layout.xnn 0xF#4 x 0x29#8) = .ldF x)
    ∧ exec (.ldI nnn) s = .next { s with i := nnn.zeroExtend 16, pc := s.pc + 2#16 }
    ∧ (∃ t, exec (.addI x) s = .next t ∧ t.i.toNat = (s.i.toNat + (s.getV x).toNat) % 2 ^ 16
        ∧ t.pc = s.pc + 2#16 ∧ Keeps [.i, .pc] s t)
    ∧ ∃ t, exec (.ldF x) s = .next t ∧ t.i.toNat = (s.getV x).toNat % 16 * 5 ∧ t.pc = s.pc + 2#16 ∧ Keeps [.i, .pc] s t

/-- R187: LD B, Vx writes the hundreds, tens and ones of Vx at I, I+1, I+2, or faults and writes nothing. -/
def Obligations.BcdStoresThreeDigits : Prop :=
  ∀ (s : State) (x : Nibble), MemoryCanonical s →
    (∀ p, decode p (Layout.xnn 0xF#4 x 0x33#8) = .ldB x)
    ∧ (4096 ≤ s.i.toNat + 2 → exec (.ldB x) s = .next { s with fault := some .dataAddressOutOfRange })
    ∧ (s.i.toNat + 2 < 4096 → ∃ t, exec (.ldB x) s = .next t
        ∧ (Memory.read t.mem (s.dataAddr 0)).toNat = (s.getV x).toNat / 100
        ∧ (Memory.read t.mem (s.dataAddr 1)).toNat = (s.getV x).toNat / 10 % 10
        ∧ (Memory.read t.mem (s.dataAddr 2)).toNat = (s.getV x).toNat % 10
        ∧ (∀ a, a < s.dataAddr 0 ∨ s.dataAddr 2 < a → Memory.read t.mem a = Memory.read s.mem a)
        ∧ t.pc = s.pc + 2#16 ∧ Keeps [.mem, .pc] s t)

/-- R189, R190: LD [I], Vx copies V0 .. Vx to I .. I+x and leaves I, or faults and writes nothing. -/
def Obligations.StoreRegsCopiesRegisters : Prop :=
  ∀ (s : State) (x : Nibble), MemoryCanonical s →
    (∀ p, decode p (Layout.xnn 0xF#4 x 0x55#8) = .storeRegs x)
    ∧ (4096 ≤ s.i.toNat + x.toNat → exec (.storeRegs x) s = .next { s with fault := some .dataAddressOutOfRange })
    ∧ (s.i.toNat + x.toNat < 4096 → ∃ t, exec (.storeRegs x) s = .next t
        ∧ (∀ k : Nibble, k.toNat ≤ x.toNat → Memory.read t.mem (s.dataAddr k.toNat) = s.getV k)
        ∧ (∀ a, a < s.dataAddr 0 ∨ s.dataAddr x.toNat < a → Memory.read t.mem a = Memory.read s.mem a)
        ∧ t.pc = s.pc + 2#16 ∧ Keeps [.mem, .pc] s t)

/-- R191, R190: LD Vx, [I] copies I .. I+x to V0 .. Vx and leaves the registers above and I, or faults and writes
nothing. -/
def Obligations.LoadRegsCopiesMemory : Prop :=
  ∀ (s : State) (x : Nibble), (∀ p, decode p (Layout.xnn 0xF#4 x 0x65#8) = .loadRegs x)
    ∧ (4096 ≤ s.i.toNat + x.toNat → exec (.loadRegs x) s = .next { s with fault := some .dataAddressOutOfRange })
    ∧ (s.i.toNat + x.toNat < 4096 → ∃ t, exec (.loadRegs x) s = .next t
        ∧ (∀ k : Nibble, k.toNat ≤ x.toNat → t.getV k = Memory.read s.mem (s.i.toNat + k.toNat))
        ∧ (∀ k : Nibble, x.toNat < k.toNat → t.getV k = s.getV k)
        ∧ t.pc = s.pc + 2#16 ∧ Keeps [.v, .pc] s t)

/-- R64, R296, R50: a byte stored by Fx55 is fetched by the very next cycle when it lies at the new pc. -/
def Obligations.StoredBytesAreFetchedNext : Prop :=
  ∀ (s t : State) (x k : Nibble), MemoryCanonical s → s.i.toNat + x.toNat < 4096 → exec (.storeRegs x) s = .next t →
    k.toNat < x.toNat → s.i.toNat + k.toNat = t.pc.toNat →
    t.fetchWord.toNat = (s.getV k).toNat * 256 + (s.getV (k + 1#4)).toNat

/-! ### Framebuffer (spec/44_display.md) -/

/-- R210: CLS. -/
def Obligations.ClsClearsEveryPixel : Prop :=
  ∀ s : State, (∀ p, decode p 0x00E0#16 = .cls)
    ∧ ∃ t, exec .cls s = .next t ∧ (∀ r c, Display.get t.disp r c = false) ∧ t.pc = s.pc + 2#16
      ∧ Keeps [.disp, .pc] s t

/-- R212, R213, R214, R216: DRW XORs every pixel that the wrapped sprite covers, in one equation for all 2048 pixels; VF
is 1 exactly when a covered pixel was 1; n = 0 draws nothing, never faults and writes VF = 0; past 0xFFF it faults and
writes nothing. -/
def Obligations.DrwXorsTheSprite : Prop :=
  ∀ (s : State) (x y n : Nibble), (∀ p, decode p (Layout.xyn 0xD#4 x y n) = .drw x y n)
    ∧ (n ≠ 0#4 → 4096 ≤ s.i.toNat + n.toNat - 1 →
        exec (.drw x y n) s = .next { s with fault := some .dataAddressOutOfRange })
    ∧ ((n = 0#4 ∨ s.i.toNat + n.toNat - 1 < 4096) → ∃ t, exec (.drw x y n) s = .next t
        ∧ (∀ r c, SpriteCovers s x y n r c → Display.get t.disp r c = !Display.get s.disp r c)
        ∧ (∀ r c, ¬ SpriteCovers s x y n r c → Display.get t.disp r c = Display.get s.disp r c)
        ∧ ((∃ r c, SpriteCovers s x y n r c ∧ Display.get s.disp r c = true) → t.getV vf = 1#8)
        ∧ ((∀ r c, SpriteCovers s x y n r c → Display.get s.disp r c = false) → t.getV vf = 0#8)
        ∧ (n = 0#4 → t.disp = s.disp ∧ t.getV vf = 0#8)
        ∧ (∀ z, z ≠ vf → t.getV z = s.getV z) ∧ t.pc = s.pc + 2#16 ∧ Keeps [.v, .disp, .pc] s t)

/-- R215: drawing the same sprite twice at the same place restores the framebuffer; onto a clear area the first draw gives
VF = 0, and the second VF = 1 if the sprite has a set bit (log entry 7 on the clear area). The second draw may name other
registers, so that a form whose coordinate register is VF, which the first draw writes, is covered too. -/
def Obligations.DrwTwiceRestores : Prop :=
  ∀ (s t : State) (x y x' y' n : Nibble), faultCondition (.drw x y n) s = none → exec (.drw x y n) s = .next t →
    t.getV x' = s.getV x → t.getV y' = s.getV y →
    ∃ u, exec (.drw x' y' n) t = .next u ∧ (∀ r c, Display.get u.disp r c = Display.get s.disp r c)
      ∧ ((∀ r c, SpriteCovers s x y n r c → Display.get s.disp r c = false) →
          t.getV vf = 0#8 ∧ ((∃ r c, SpriteCovers s x y n r c) → u.getV vf = 1#8))

/-! ### Keys and timers (spec/45_keys_timers.md) -/

/-- R230, R231, R232: SKP and SKNP for every key index and both values of KEY_INDEX_OOR. -/
def Obligations.KeySkips : Prop :=
  ∀ (s : State) (x : Nibble),
    (∀ p, decode p (Layout.xnn 0xE#4 x 0x9E#8) = .skp x ∧ decode p (Layout.xnn 0xE#4 x 0xA1#8) = .sknp x)
    ∧ (∀ k : Fin 16, (s.getV x).toNat = k.val → s.key[k.val] = true →
        exec (.skp x) s = .next { s with pc := s.pc + 4#16 } ∧ exec (.sknp x) s = .next { s with pc := s.pc + 2#16 })
    ∧ (∀ k : Fin 16, (s.getV x).toNat = k.val → s.key[k.val] = false →
        exec (.skp x) s = .next { s with pc := s.pc + 2#16 } ∧ exec (.sknp x) s = .next { s with pc := s.pc + 4#16 })
    ∧ (15 < (s.getV x).toNat → s.params.keyIndexOor = .fault →
        exec (.skp x) s = .next { s with fault := some .keyIndexOutOfRange }
          ∧ exec (.sknp x) s = .next { s with fault := some .keyIndexOutOfRange })
    ∧ (15 < (s.getV x).toNat → s.params.keyIndexOor = .noSkipNoop →
        exec (.skp x) s = .next { s with pc := s.pc + 2#16 } ∧ exec (.sknp x) s = .next { s with pc := s.pc + 2#16 })

/-- R235, R236: LD Vx, K stores the lowest pressed key and advances; with no key pressed the cycle changes nothing. -/
def Obligations.WaitForKeyTakesTheLowest : Prop :=
  ∀ (s : State) (x : Nibble), (∀ p, decode p (Layout.xnn 0xF#4 x 0x0A#8) = .ldVxK x)
    ∧ ((∀ k : Fin 16, s.key[k.val] = false) → exec (.ldVxK x) s = .next s)
    ∧ ∀ k : Fin 16, s.key[k.val] = true → (∀ j : Fin 16, j < k → s.key[j.val] = false) →
        ∃ t b, exec (.ldVxK x) s = .next t ∧ WritesOneReg x b s t ∧ b.toNat = k.val

/-- R240, R241, R242: the three timer moves. -/
def Obligations.TimerMoves : Prop :=
  ∀ (s : State) (x : Nibble),
    (∀ p, decode p (Layout.xnn 0xF#4 x 0x07#8) = .ldVxDt x ∧ decode p (Layout.xnn 0xF#4 x 0x15#8) = .ldDtVx x
      ∧ decode p (Layout.xnn 0xF#4 x 0x18#8) = .ldStVx x)
    ∧ (∃ t, exec (.ldVxDt x) s = .next t ∧ WritesOneReg x s.dt s t)
    ∧ exec (.ldDtVx x) s = .next { s with dt := s.getV x, pc := s.pc + 2#16 }
    ∧ exec (.ldStVx x) s = .next { s with st := s.getV x, pc := s.pc + 2#16 }

/-! ### The host's operations (spec/60_exceptions.md, spec/70_reset_and_hazards.md) -/

/-- R262: a tick takes 1 from each timer, floored at 0, and changes nothing else. The host's schedule, from which the step
takes the tick, is the model's form of the host (log entry 2), here and in the statements below. -/
def Obligations.TickCountsDown : Prop :=
  ∀ (s : State) (rest : List HostOp), s.fault = none → s.pending = .tick :: rest →
    ∃ t, step s = .next t ∧ t.dt.toNat = s.dt.toNat - 1 ∧ t.st.toNat = s.st.toNat - 1 ∧ t.pending = rest
      ∧ Keeps [.dt, .st, .pending] s t

/-- R271: set_key writes one flag for an index in 0..15 and does nothing for any other index; but for reset it is the only
operation that changes the key latch. -/
def Obligations.SetKeyWritesOneFlag : Prop :=
  ∀ (s : State) (index : Int) (pressed : Bool) (rest : List HostOp), s.pending = .setKey index pressed :: rest →
    ((index < 0 ∨ 15 < index) → step s = .next { s with pending := rest })
    ∧ (∀ k : Fin 16, index = k.val →
        ∃ t, step s = .next t ∧ t.key[k.val] = pressed ∧ (∀ j : Fin 16, j ≠ k → t.key[j.val] = s.key[j.val])
          ∧ t.pending = rest ∧ Keeps [.key, .pending] s t)
    ∧ ∀ (op : HostOp) (t : State), hostOp op s = .next t → t.key ≠ s.key →
        op = .reset ∨ ∃ index' pressed', op = .setKey index' pressed'

/-- R270: load_program copies a ROM of at most 3584 bytes to 0x200 and answers OK; a longer one answers OutOfBounds and
writes nothing. -/
def Obligations.LoadProgramCopiesOrRejects : Prop :=
  ∀ (s : State) (bytes : List Byte) (rest : List HostOp), MemoryCanonical s → s.pending = .loadProgram bytes :: rest →
    (4096 < bytes.length + 0x200 → loadStatus bytes.length = .outOfBounds ∧ step s = .next { s with pending := rest })
    ∧ (bytes.length + 0x200 ≤ 4096 → loadStatus bytes.length = .ok ∧ ∃ t, step s = .next t
        ∧ (∀ (k : Nat) (hk : k < bytes.length), Memory.read t.mem (0x200 + k) = bytes[k])
        ∧ (∀ a, a < 0x200 ∨ 0x200 + bytes.length ≤ a → Memory.read t.mem a = Memory.read s.mem a)
        ∧ t.pending = rest ∧ Keeps [.mem, .pending] s t)

/-- R290, R35, R291: reset sets every field of the spec's state to its value of R35, whatever the state before, a faulted
one too, and is idempotent. -/
def Obligations.ResetGivesTheResetValues : Prop :=
  ∀ (s : State) (rest : List HostOp), s.pending = .reset :: rest →
    resetBlock (resetBlock s) = resetBlock s
    ∧ ∃ t, step s = .next t ∧ (∀ a, Memory.read t.mem a = 0#8) ∧ (∀ z, t.getV z = 0#8) ∧ t.i = 0#16 ∧ t.pc = 0x200#16
      ∧ (∀ k : Fin 16, t.stack[k.val] = 0#16) ∧ t.sp.val = 0 ∧ t.dt = 0#8 ∧ t.st = 0#8
      ∧ (∀ r c, Display.get t.disp r c = false) ∧ (∀ k : Fin 16, t.key[k.val] = false) ∧ t.fault = none

/-- R293, R292, R270: the boot order reset, font image, load_program, from any state: the program at 0x200, the font image
(if the parameter gives one) at 0x000, every other byte 0, and the block ready to run at 0x200. -/
def Obligations.BootLoadsFontAndProgram : Prop :=
  ∀ (s : State) (rom : List Byte) (rest : List HostOp), rom.length ≤ 3584 → s.pending = bootOps rom ++ rest →
    ∃ t, Host.Core.run Sys2Proof.core 3 s = .next t ∧ t.pc = 0x200#16 ∧ t.fault = none ∧ t.sp.val = 0 ∧ t.pending = rest
      ∧ (∀ (k : Nat) (hk : k < rom.length), Memory.read t.mem (0x200 + k) = rom[k])
      ∧ (∀ a, 0x200 + rom.length ≤ a → Memory.read t.mem a = 0#8)
      ∧ (∀ a, 80 ≤ a → a < 0x200 → Memory.read t.mem a = 0#8)
      ∧ (s.params.fontImage = none → ∀ a, a < 80 → Memory.read t.mem a = 0#8)
      ∧ ∀ image, s.params.fontImage = some image → ∀ (a : Nat) (ha : a < 80), Memory.read t.mem a = image[a]

/-- R283, R112: a finished run is not changed by a cycle, and stays finished under cycles, ticks, key writes and reads. -/
def Obligations.FinishedRunStaysFinished : Prop :=
  ∀ s : State, Finished s →
    cycle s = .next s
    ∧ ∀ op : HostOp,
        (op = .cycle ∨ op = .tick ∨ (∃ index pressed, op = .setKey index pressed) ∨ ∃ port, op = .read port) →
        ∃ t, hostOp op s = .next t ∧ Finished t

/-- R268, R269, R275, R276: the host's reads give pc, a V register, ST, the sound output ST ≠ 0, the display and the fault
latch, and change nothing, in a halted block too. -/
def Obligations.HostReadsChangeNothing : Prop :=
  ∀ (s : State) (port : ReadPort) (x : Nibble) (rest : List HostOp), s.pending = .read port :: rest →
    step s = .next { s with pending := rest }
    ∧ observe .pc s = .word s.pc ∧ observe (.reg x) s = .byte (s.getV x) ∧ observe .soundTimer s = .byte s.st
    ∧ (observe .soundOutput s = .bit true ↔ 0 < s.st.toNat) ∧ observe .display s = .grid s.disp
    ∧ observe .fault s = .latch s.fault

/-! ### Invariants of every step -/

/-- R55, R58 and the model's form of memory: every step keeps memory in its canonical form, within 0x000 to 0xFFF. -/
def Obligations.StepKeepsMemoryCanonical : Prop :=
  ∀ s t : State, MemoryCanonical s → step s = .next t → MemoryCanonical t

/-- R27: every step, whatever its operation, keeps pc within the bounds of R27 and every pushed return address at most
0xFFE. -/
def Obligations.StepKeepsPcBounded : Prop :=
  ∀ s t : State, PcBounded s → step s = .next t → PcBounded t

/-- R35: the reset state, with any parameters and any schedule, meets both invariants. -/
def Obligations.BootStateMeetsTheInvariants : Prop :=
  ∀ (p : Params) (ops : List HostOp) (d : Nat),
    MemoryCanonical (bootState p ops d) ∧ PcBounded (bootState p ops d) ∧ bootState defaultParams [] 0 = State.reset

/-- R27: "In every state reached from reset", for every value of the parameters, every schedule of the host and every
sequence of random bytes: pc is at most 0x1002 under UNMATCHED and at most 0x10FE under JUMP_V0, so every sum with pc stays
below 2^16. That the parameters are data which no step changes is the model's choice (log entry 3), the schedule is its form
of the host (log entry 2). It follows from StepKeepsPcBounded and BootStateMeetsTheInvariants by induction on the steps. -/
def Obligations.ReachedStatesHavePcBounded : Prop :=
  ∀ (p : Params) (ops : List HostOp) (d n : Nat) (t : State),
    Host.Core.run Sys2Proof.core n (bootState p ops d) = .next t →
    (p.bnnnMode = .unmatched → t.pc.toNat ≤ 0x1002) ∧ t.pc.toNat ≤ 0x10FE ∧ t.params = p

/-- R267: in a schedule that CYCLES_PER_FRAME = N admits there are exactly N cycles for every tick. -/
def Obligations.AdmittedScheduleRunsNCyclesPerTick : Prop :=
  ∀ (n : Nat) (ops : List HostOp), AdmittedSchedule (some n) ops → ops.count .cycle = n * ops.count .tick
end

