-- ==== Sys2Proof/Laws/Decode.lean ====
section
/-! SUPPORT. The fields of the three layouts (spec/30_encoding.md R71, R72), and a word put together from its fields. -/

namespace Sys2Proof

section Layouts

variable (f x y n : Nibble) (nn : Byte) (nnn : Addr)

/-- The bits of a word of format `nnn`. -/
theorem Layout.getLsbD_nnn (i : Nat) :
    (Layout.nnn f nnn).getLsbD i = if i < 12 then nnn.getLsbD i else f.getLsbD (i - 12) :=
  BitVec.getLsbD_append

/-- The bits of a word of format `xnn`. -/
theorem Layout.getLsbD_xnn (i : Nat) :
    (Layout.xnn f x nn).getLsbD i
      = if i < 8 then nn.getLsbD i else if i < 12 then x.getLsbD (i - 8) else f.getLsbD (i - 12) := by
  have h : (Layout.xnn f x nn).getLsbD i = if i < 8 then nn.getLsbD i else (f ++ x).getLsbD (i - 8) :=
    BitVec.getLsbD_append
  rw [h]
  split
  · rfl
  · rw [BitVec.getLsbD_append]
    have h2 : i - 8 - 4 = i - 12 := by omega
    have h3 : i - 8 < 4 ↔ i < 12 := by omega
    simp only [h2, h3]

/-- The bits of a word of format `xyn`. -/
theorem Layout.getLsbD_xyn (i : Nat) :
    (Layout.xyn f x y n).getLsbD i
      = if i < 4 then n.getLsbD i else if i < 8 then y.getLsbD (i - 4)
        else if i < 12 then x.getLsbD (i - 8) else f.getLsbD (i - 12) := by
  have h : (Layout.xyn f x y n).getLsbD i = if i < 4 then n.getLsbD i else (f ++ x ++ y).getLsbD (i - 4) :=
    BitVec.getLsbD_append
  rw [h]
  split
  · rfl
  · simp only [BitVec.getLsbD_append]
    have h2 : i - 4 - 4 = i - 8 := by omega
    have h3 : i - 8 - 4 = i - 12 := by omega
    have h4 : i - 4 < 4 ↔ i < 8 := by omega
    have h5 : i - 8 < 4 ↔ i < 12 := by omega
    simp only [h2, h3, h4, h5]

@[simp] theorem Field.family_nnn : Field.family (Layout.nnn f nnn) = f := by
  apply BitVec.eq_of_getLsbD_eq
  intro i hi
  simp only [Field.family, BitVec.getLsbD_extractLsb', hi, decide_true, Bool.true_and, Layout.getLsbD_nnn]
  grind

@[simp] theorem Field.nnn_nnn : Field.nnn (Layout.nnn f nnn) = nnn := by
  apply BitVec.eq_of_getLsbD_eq
  intro i hi
  simp only [Field.nnn, BitVec.getLsbD_extractLsb', hi, decide_true, Bool.true_and, Layout.getLsbD_nnn]
  grind

@[simp] theorem Field.family_xnn : Field.family (Layout.xnn f x nn) = f := by
  apply BitVec.eq_of_getLsbD_eq
  intro i hi
  simp only [Field.family, BitVec.getLsbD_extractLsb', hi, decide_true, Bool.true_and, Layout.getLsbD_xnn]
  grind

@[simp] theorem Field.x_xnn : Field.x (Layout.xnn f x nn) = x := by
  apply BitVec.eq_of_getLsbD_eq
  intro i hi
  simp only [Field.x, BitVec.getLsbD_extractLsb', hi, decide_true, Bool.true_and, Layout.getLsbD_xnn]
  grind

@[simp] theorem Field.nn_xnn : Field.nn (Layout.xnn f x nn) = nn := by
  apply BitVec.eq_of_getLsbD_eq
  intro i hi
  simp only [Field.nn, BitVec.getLsbD_extractLsb', hi, decide_true, Bool.true_and, Layout.getLsbD_xnn]
  grind

@[simp] theorem Field.family_xyn : Field.family (Layout.xyn f x y n) = f := by
  apply BitVec.eq_of_getLsbD_eq
  intro i hi
  simp only [Field.family, BitVec.getLsbD_extractLsb', hi, decide_true, Bool.true_and, Layout.getLsbD_xyn]
  grind

@[simp] theorem Field.x_xyn : Field.x (Layout.xyn f x y n) = x := by
  apply BitVec.eq_of_getLsbD_eq
  intro i hi
  simp only [Field.x, BitVec.getLsbD_extractLsb', hi, decide_true, Bool.true_and, Layout.getLsbD_xyn]
  grind

@[simp] theorem Field.y_xyn : Field.y (Layout.xyn f x y n) = y := by
  apply BitVec.eq_of_getLsbD_eq
  intro i hi
  simp only [Field.y, BitVec.getLsbD_extractLsb', hi, decide_true, Bool.true_and, Layout.getLsbD_xyn]
  grind

@[simp] theorem Field.n_xyn : Field.n (Layout.xyn f x y n) = n := by
  apply BitVec.eq_of_getLsbD_eq
  intro i hi
  simp only [Field.n, BitVec.getLsbD_extractLsb', hi, decide_true, Bool.true_and, Layout.getLsbD_xyn]
  grind

end Layouts

/-- A word is its family and its nnn field. -/
theorem Layout.nnn_fields (op : Word) : Layout.nnn (Field.family op) (Field.nnn op) = op := by
  unfold Layout.nnn Field.family Field.nnn
  apply BitVec.eq_of_getLsbD_eq
  intro i hi
  rw [BitVec.getLsbD_append]
  split
  · simp [*]
  · have h1 : i - 12 < 4 := by omega
    have h2 : 12 + (i - 12) = i := by omega
    simp [h1, h2]

/-- A word is its family, its x field and its nn field (R71: nnn = x ++ nn). -/
theorem Layout.xnn_fields (op : Word) : Layout.xnn (Field.family op) (Field.x op) (Field.nn op) = op := by
  unfold Layout.xnn Field.family Field.x Field.nn
  apply BitVec.eq_of_getLsbD_eq
  intro i hi
  simp only [BitVec.getLsbD_append, BitVec.getLsbD_extractLsb']
  split
  · simp [*]
  · split
    · have h2 : 8 + (i - 8) = i := by omega
      simp [*]
    · have h1 : i - 8 - 4 < 4 := by omega
      have h2 : 12 + (i - 8 - 4) = i := by omega
      simp [h1, h2]

/-- A word is its family, its x, y and n fields (R71: nn = y ++ n). -/
theorem Layout.xyn_fields (op : Word) :
    Layout.xyn (Field.family op) (Field.x op) (Field.y op) (Field.n op) = op := by
  unfold Layout.xyn Field.family Field.x Field.y Field.n
  apply BitVec.eq_of_getLsbD_eq
  intro i hi
  simp only [BitVec.getLsbD_append, BitVec.getLsbD_extractLsb']
  split
  · simp [*]
  · split
    · have h2 : 4 + (i - 4) = i := by omega
      simp [*]
    · split
      · have h2 : 8 + (i - 4 - 4) = i := by omega
        simp [*]
      · have h1 : i - 4 - 4 - 4 < 4 := by omega
        have h2 : 12 + (i - 4 - 4 - 4) = i := by omega
        simp [h1, h2]

/-- The bytes of a word, put together again, are the word (R50). -/
theorem joinBytes_wordBytes (op : Word) : joinBytes (op.extractLsb' 8 8) (op.extractLsb' 0 8) = op := by
  unfold joinBytes
  apply BitVec.eq_of_getLsbD_eq
  intro i hi
  rw [BitVec.getLsbD_append]
  split
  · simp [*]
  · have h1 : i - 8 < 8 := by omega
    have h2 : 8 + (i - 8) = i := by omega
    simp [h1, h2]

/-- Decoding the two bytes of a word decodes the word and leaves the rest (R70). -/
theorem decodeBytes_wordBytes (p : Params) (op : Word) (rest : List Byte) :
    decodeBytes p (wordBytes op ++ rest) = .ok (decode p op, rest) := by
  simp [wordBytes, decodeBytes, joinBytes_wordBytes]

end Sys2Proof
end

