-- ==== Sys2Proof/Laws/Framebuffer.lean ====
section
/-! SUPPORT. The framebuffer engine: what one pixel holds after a flip, a sprite row and a sprite, and the collision flag
(spec/44_display.md R212 to R217). -/

namespace Sys2Proof.Machine

@[simp] theorem Display.get_clear (r : Fin 32) (c : Fin 64) : Display.get Display.clear r c = false := by
  simp [Display.get, Display.clear]

/-- A flip changes one pixel. -/
theorem Display.get_flip (d : Display) (r r' : Fin 32) (c c' : Fin 64) :
    Display.get (Display.flip d r c) r' c' = (Display.get d r' c' ^^ decide (r' = r ∧ c' = c)) := by
  unfold Display.get Display.flip
  by_cases hr : r' = r
  · subst hr
    by_cases hc : c' = c
    · subst hc
      simp
    · have : ¬ c.val = c'.val := fun h => hc (Fin.ext h.symm)
      simp [hc, this]
  · have : ¬ r.val = r'.val := fun h => hr (Fin.ext h.symm)
    simp [hr, this]

/-- Some set bit among the first `k` of a sprite byte lands on this column. -/
def rowCovers (b : Byte) (col k : Nat) (c : Fin 64) : Bool :=
  decide (∃ j, j < k ∧ spriteBit b j = true ∧ c = wrapCol (col + j))

/-- Some set bit among the first `n` rows of a sprite lands on this pixel. -/
def spriteCovers (m : Memory) (base row col n : Nat) (r : Fin 32) (c : Fin 64) : Bool :=
  decide (∃ k, k < n ∧ r = wrapRow (row + k) ∧ rowCovers (Memory.read m (base + k)) col 8 c = true)

/-- Columns at most 8 apart are different pixels (R217). -/
theorem wrapCol_inj {col j k : Nat} (hj : j < 64) (hk : k < 64) (h : wrapCol (col + j) = wrapCol (col + k)) : j = k := by
  have := congrArg Fin.val h
  simp only [wrapCol] at this
  omega

/-- Rows at most 15 apart are different pixels (R217). -/
theorem wrapRow_inj {row j k : Nat} (hj : j < 32) (hk : k < 32) (h : wrapRow (row + j) = wrapRow (row + k)) : j = k := by
  have := congrArg Fin.val h
  simp only [wrapRow] at this
  omega

/-- The first k + 1 bits cover what the first k cover, and one pixel more when bit k is set. -/
theorem rowCovers_succ (b : Byte) (col k : Nat) (c : Fin 64) :
    rowCovers b col (k + 1) c = (rowCovers b col k c || (spriteBit b k && decide (c = wrapCol (col + k)))) := by
  rw [Bool.eq_iff_iff]
  simp only [rowCovers, decide_eq_true_eq, Bool.or_eq_true, Bool.and_eq_true]
  constructor
  · rintro ⟨j, hj, hb, hc⟩
    rcases Nat.lt_succ_iff_lt_or_eq.1 hj with h | h
    · exact .inl ⟨j, h, hb, hc⟩
    · subst h
      exact .inr ⟨hb, hc⟩
  · rintro (⟨j, hj, hb, hc⟩ | ⟨hb, hc⟩)
    · exact ⟨j, by omega, hb, hc⟩
    · exact ⟨k, by omega, hb, hc⟩

/-- The first `k` bits of a sprite row, drawn: every pixel, and the collision flag. -/
theorem drawBits_spec (b : Byte) (row col : Nat) (acc : Display × Bool) : ∀ k, k ≤ 8 →
    (∀ r c, Display.get ((List.range k).foldl (fun a j => drawBit b row col j a) acc).1 r c
        = (Display.get acc.1 r c ^^ (decide (r = wrapRow row) && rowCovers b col k c))) ∧
      (((List.range k).foldl (fun a j => drawBit b row col j a) acc).2
        = (acc.2 || decide (∃ c, Display.get acc.1 (wrapRow row) c = true ∧ rowCovers b col k c = true)))
  | 0, _ => by simp [rowCovers]
  | k + 1, hk => by
    obtain ⟨ih1, ih2⟩ := drawBits_spec b row col acc k (by omega)
    rw [List.range_succ, List.foldl_append]
    simp only [List.foldl_cons, List.foldl_nil]
    generalize (List.range k).foldl (fun a j => drawBit b row col j a) acc = drawn at ih1 ih2 ⊢
    unfold drawBit
    have hfresh : rowCovers b col k (wrapCol (col + k)) = false := by
      simp only [rowCovers, decide_eq_false_iff_not]
      rintro ⟨j, hj, _, hc⟩
      have := wrapCol_inj (by omega) (by omega) hc
      omega
    by_cases hb : spriteBit b k = true
    · simp only [hb, if_true]
      constructor
      · intro r c
        rw [Display.get_flip, ih1, rowCovers_succ]
        by_cases hc : c = wrapCol (col + k)
        · subst hc
          simp [hfresh, hb]
        · simp [hb, hc]
      · rw [ih2, ih1]
        simp only [hfresh, Bool.and_false, Bool.bne_false, Bool.or_assoc]
        refine congrArg (acc.2 || ·) ?_
        rw [Bool.eq_iff_iff]
        simp only [Bool.or_eq_true, decide_eq_true_eq, rowCovers_succ, hb, Bool.true_and]
        constructor
        · rintro (⟨c, h1, h2⟩ | h)
          · exact ⟨c, h1, .inl h2⟩
          · exact ⟨_, h, .inr rfl⟩
        · rintro ⟨c, h1, h2 | h2⟩
          · exact .inl ⟨c, h1, h2⟩
          · subst h2
            exact .inr h1
    · simp only [hb, Bool.false_eq_true, if_false]
      have hsame : ∀ c, rowCovers b col (k + 1) c = rowCovers b col k c := by
        intro c
        rw [rowCovers_succ]
        simp [hb]
      exact ⟨fun r c => by rw [ih1, hsame], by rw [ih2]; simp only [hsame]⟩

/-- One sprite row, drawn. -/
theorem drawByte_spec (b : Byte) (row col : Nat) (acc : Display × Bool) :
    (∀ r c, Display.get (drawByte b row col acc).1 r c
        = (Display.get acc.1 r c ^^ (decide (r = wrapRow row) && rowCovers b col 8 c))) ∧
      ((drawByte b row col acc).2
        = (acc.2 || decide (∃ c, Display.get acc.1 (wrapRow row) c = true ∧ rowCovers b col 8 c = true))) :=
  drawBits_spec b row col acc 8 (Nat.le_refl 8)

/-- The first k + 1 rows cover what the first k cover, and what row k covers. -/
theorem spriteCovers_succ (m : Memory) (base row col k : Nat) (r : Fin 32) (c : Fin 64) :
    spriteCovers m base row col (k + 1) r c
      = (spriteCovers m base row col k r c
          || (decide (r = wrapRow (row + k)) && rowCovers (Memory.read m (base + k)) col 8 c)) := by
  rw [Bool.eq_iff_iff]
  simp only [spriteCovers, decide_eq_true_eq, Bool.or_eq_true, Bool.and_eq_true]
  constructor
  · rintro ⟨j, hj, hb, hc⟩
    rcases Nat.lt_succ_iff_lt_or_eq.1 hj with h | h
    · exact .inl ⟨j, h, hb, hc⟩
    · subst h
      exact .inr ⟨hb, hc⟩
  · rintro (⟨j, hj, hb, hc⟩ | ⟨hb, hc⟩)
    · exact ⟨j, by omega, hb, hc⟩
    · exact ⟨k, by omega, hb, hc⟩

/-- A sprite of at most 32 rows, drawn: every pixel is XORed with the sprite, and the collision flag is raised exactly
when a pixel that was 1 is covered (R212, R215). -/
theorem drawSprite_spec (m : Memory) (base row col : Nat) (acc : Display × Bool) : ∀ n, n ≤ 32 →
    (∀ r c, Display.get (drawSprite m base row col n acc).1 r c
        = (Display.get acc.1 r c ^^ spriteCovers m base row col n r c)) ∧
      ((drawSprite m base row col n acc).2
        = (acc.2 || decide (∃ r c, Display.get acc.1 r c = true ∧ spriteCovers m base row col n r c = true)))
  | 0, _ => by simp [drawSprite, spriteCovers]
  | k + 1, hk => by
    obtain ⟨ih1, ih2⟩ := drawSprite_spec m base row col acc k (by omega)
    have hstep : drawSprite m base row col (k + 1) acc
        = drawByte (Memory.read m (base + k)) (row + k) col (drawSprite m base row col k acc) := by
      unfold drawSprite
      rw [List.range_succ, List.foldl_append]
      rfl
    have hfresh : ∀ c, spriteCovers m base row col k (wrapRow (row + k)) c = false := by
      intro c
      simp only [spriteCovers, decide_eq_false_iff_not]
      rintro ⟨j, hj, hc, _⟩
      have := wrapRow_inj (by omega) (by omega) hc
      omega
    obtain ⟨b1, b2⟩ := drawByte_spec (Memory.read m (base + k)) (row + k) col (drawSprite m base row col k acc)
    rw [hstep]
    generalize drawSprite m base row col k acc = drawn at ih1 ih2 b1 b2 ⊢
    constructor
    · intro r c
      rw [b1, ih1, spriteCovers_succ]
      by_cases hr : r = wrapRow (row + k)
      · subst hr
        simp [hfresh]
      · simp [hr]
    · rw [b2, ih2, Bool.or_assoc]
      refine congrArg (acc.2 || ·) ?_
      rw [Bool.eq_iff_iff]
      simp only [Bool.or_eq_true, decide_eq_true_eq, spriteCovers_succ, Bool.and_eq_true, ih1, hfresh, Bool.bne_false]
      constructor
      · rintro (⟨r, c, h1, h2⟩ | ⟨c, h1, h2⟩)
        · exact ⟨r, c, h1, .inl h2⟩
        · exact ⟨_, c, h1, .inr ⟨rfl, h2⟩⟩
      · rintro ⟨r, c, h1, h2 | ⟨h2, h3⟩⟩
        · exact .inl ⟨r, c, h1, h2⟩
        · subst h2
          exact .inr ⟨c, h1, h3⟩

end Sys2Proof.Machine
end

