-- ==== Sys2Proof/Laws/Memory.lean ====
section
/-! SUPPORT. Memory: what a read gives after a write or a block of writes, and that both keep the canonical form. -/

namespace Sys2Proof.Machine

@[simp] theorem Memory.read_nil (a : Nat) : Memory.read [] a = 0#8 := rfl

/-- Below the first address that may be listed, memory reads as 0. -/
theorem Memory.read_below {hi : Nat} : ∀ {lo : Nat} {m : Memory} {a : Nat},
    Memory.wfFrom hi lo m = true → a < lo → Memory.read m a = 0#8
  | _, [], _, _, _ => rfl
  | lo, (a', b) :: rest, a, h, ha => by
    simp only [Memory.wfFrom, Bool.and_eq_true, decide_eq_true_eq] at h
    have : a' ≠ a := by omega
    simp only [Memory.read, this, if_false]
    exact Memory.read_below h.2 (by omega)

/-- A lower bound on the listed addresses may be lowered. -/
theorem Memory.wfFrom_mono {hi lo lo' : Nat} {m : Memory} (h : Memory.wfFrom hi lo m = true) (hl : lo' ≤ lo) :
    Memory.wfFrom hi lo' m = true := by
  cases m with
  | nil => rfl
  | cons c rest =>
    obtain ⟨a, b⟩ := c
    simp only [Memory.wfFrom, Bool.and_eq_true, decide_eq_true_eq] at h ⊢
    exact ⟨⟨⟨by omega, h.1.1.2⟩, h.1.2⟩, h.2⟩

/-- Writing inside the address space keeps the canonical form, from any lower bound that the address meets. -/
theorem Memory.wfFrom_write {hi : Nat} : ∀ {lo : Nat} {m : Memory} {a : Nat} {b : Byte},
    Memory.wfFrom hi lo m = true → lo ≤ a → a < hi → Memory.wfFrom hi lo (Memory.write m a b) = true
  | lo, [], a, b, _, hl, hh => by
    unfold Memory.write
    split
    · rfl
    · simp only [Memory.wfFrom, Bool.and_eq_true, decide_eq_true_eq, and_true]
      exact ⟨⟨hl, hh⟩, ‹_›⟩
  | lo, (a', b') :: rest, a, b, h, hl, hh => by
    have hw := h
    simp only [Memory.wfFrom, Bool.and_eq_true, decide_eq_true_eq] at hw
    obtain ⟨⟨⟨h1, h2⟩, h3⟩, h4⟩ := hw
    unfold Memory.write
    split
    · split
      · exact h
      · simp only [Memory.wfFrom, Bool.and_eq_true, decide_eq_true_eq]
        exact ⟨⟨⟨hl, hh⟩, ‹_›⟩, ⟨⟨by omega, h2⟩, h3⟩, h4⟩
    · split
      · split
        · exact Memory.wfFrom_mono h4 (by omega)
        · simp only [Memory.wfFrom, Bool.and_eq_true, decide_eq_true_eq]
          subst_vars
          exact ⟨⟨⟨hl, hh⟩, ‹_›⟩, h4⟩
      · simp only [Memory.wfFrom, Bool.and_eq_true, decide_eq_true_eq]
        exact ⟨⟨⟨h1, h2⟩, h3⟩, Memory.wfFrom_write h4 (by omega) hh⟩

/-- A write keeps the canonical form (R55). -/
theorem Memory.wf_write {m : Memory} {a : Nat} {b : Byte} (h : Memory.wf m = true) (ha : a < 4096) :
    Memory.wf (Memory.write m a b) = true :=
  Memory.wfFrom_write h (Nat.zero_le a) ha

/-- A write to an address below every listed one: the read after it, from any lower bound. -/
theorem Memory.read_write_from {hi : Nat} : ∀ {lo : Nat} {m : Memory} {a : Nat} {b : Byte} (a' : Nat),
    Memory.wfFrom hi lo m = true →
      Memory.read (Memory.write m a b) a' = if a' = a then b else Memory.read m a'
  | _, [], a, b, a', _ => by
    unfold Memory.write
    split
    · subst_vars
      simp [Memory.read]
    · simp [Memory.read, eq_comm]
  | lo, (c, d) :: rest, a, b, a', h => by
    have hw := h
    simp only [Memory.wfFrom, Bool.and_eq_true, decide_eq_true_eq] at hw
    obtain ⟨⟨⟨h1, h2⟩, h3⟩, h4⟩ := hw
    unfold Memory.write
    split
    · split
      · split
        · subst_vars
          rename_i hlt
          have hc : ¬ c = a' := by omega
          simp only [Memory.read, hc, if_false]
          exact Memory.read_below h4 (by omega)
        · rfl
      · simp only [Memory.read]
        by_cases hx : a = a'
        · simp [hx]
        · simp [hx, Ne.symm hx]
    · split
      · subst_vars
        split
        · subst_vars
          split
          · subst_vars
            exact Memory.read_below h4 (by omega)
          · rename_i hx
            have hx' : ¬ a = a' := fun e => hx e.symm
            simp [Memory.read, hx']
        · simp only [Memory.read]
          by_cases hx : a = a'
          · simp [hx]
          · simp [hx, Ne.symm hx]
      · simp only [Memory.read]
        rw [Memory.read_write_from a' h4]
        by_cases hc : c = a'
        · subst hc
          have : ¬ c = a := by omega
          simp [this]
        · simp [hc]

/-- A read after a write of a memory in canonical form (R55). -/
theorem Memory.read_write {m : Memory} (h : Memory.wf m = true) (a : Nat) (b : Byte) (a' : Nat) :
    Memory.read (Memory.write m a b) a' = if a' = a then b else Memory.read m a' :=
  Memory.read_write_from a' h

/-- A block of writes inside the address space keeps the canonical form. -/
theorem Memory.wf_writeBlock : ∀ {bs : List Byte} {m : Memory} {a : Nat},
    Memory.wf m = true → a + bs.length ≤ 4096 → Memory.wf (Memory.writeBlock m a bs) = true
  | [], _, _, h, _ => h
  | b :: bs, m, a, h, hl => by
    simp only [List.length_cons] at hl
    unfold Memory.writeBlock
    exact Memory.wf_writeBlock (Memory.wf_write h (by omega)) (by omega)

/-- A read after a block of writes: the byte of the block, or what was there before (R53, R55). -/
theorem Memory.read_writeBlock : ∀ {bs : List Byte} {m : Memory} {a : Nat} (a' : Nat),
    Memory.wf m = true → a + bs.length ≤ 4096 →
      Memory.read (Memory.writeBlock m a bs) a' = if a ≤ a' then bs.getD (a' - a) (Memory.read m a') else Memory.read m a'
  | [], m, a, a', _, _ => by simp [Memory.writeBlock]
  | b :: bs, m, a, a', h, hl => by
    simp only [List.length_cons] at hl
    unfold Memory.writeBlock
    rw [Memory.read_writeBlock a' (Memory.wf_write h (by omega)) (by omega), Memory.read_write h]
    rcases Nat.lt_trichotomy a' a with hx | hx | hx
    · have h1 : ¬ a + 1 ≤ a' := by omega
      have h2 : ¬ a ≤ a' := by omega
      have h3 : ¬ a' = a := by omega
      simp [h1, h2, h3]
    · subst hx
      simp
    · have h1 : a + 1 ≤ a' := by omega
      have h2 : a ≤ a' := by omega
      have h3 : ¬ a' = a := by omega
      obtain ⟨k, hk⟩ : ∃ k, a' - a = k + 1 := ⟨a' - a - 1, by omega⟩
      have hk' : a' - (a + 1) = k := by omega
      simp [h1, h2, h3, hk, hk']

/-- A block of writes leaves every byte outside the block alone. -/
theorem Memory.read_writeBlock_outside {bs : List Byte} {m : Memory} {a a' : Nat} (h : Memory.wf m = true)
    (hl : a + bs.length ≤ 4096) (ho : a' < a ∨ a + bs.length ≤ a') :
    Memory.read (Memory.writeBlock m a bs) a' = Memory.read m a' := by
  rw [Memory.read_writeBlock a' h hl]
  split
  · rw [List.getD_eq_default _ _ (by omega)]
  · rfl

/-- A block of writes puts its k-th byte at the k-th address. -/
theorem Memory.read_writeBlock_inside {bs : List Byte} {m : Memory} {a k : Nat} (h : Memory.wf m = true)
    (hl : a + bs.length ≤ 4096) (hk : k < bs.length) :
    Memory.read (Memory.writeBlock m a bs) (a + k) = bs[k] := by
  rw [Memory.read_writeBlock (a + k) h hl]
  simp [hk]

/-- The memory of State.reset is in canonical form. -/
theorem Memory.wf_reset : Memory.wf State.reset.mem = true := rfl

end Sys2Proof.Machine
end

