-- ==== Sys2Proof/Laws/Ops.lean ====
section
/-! SUPPORT. One lemma per shared operation, saying everything it can do. -/

namespace Sys2Proof.Machine

/-! ### Stack (spec/10_state.md R28) -/

/-- A push fails exactly at SP = 16; otherwise it writes entry SP and adds 1 to SP. -/
theorem State.push_cases (s : State) (w : Word) :
    (s.sp.val = 16 ∧ s.push w = none) ∨
      ∃ h : s.sp.val < 16,
        s.push w = some { s with stack := s.stack.set s.sp.val w h, sp := ⟨s.sp.val + 1, by omega⟩ } := by
  unfold State.push
  split
  · exact .inr ⟨‹_›, rfl⟩
  · exact .inl ⟨by omega, rfl⟩

/-- A pop fails exactly at SP = 0; otherwise it gives entry SP - 1, takes 1 from SP, and clears nothing. -/
theorem State.pop_cases (s : State) :
    (s.sp.val = 0 ∧ s.pop = none) ∨
      ∃ h : 0 < s.sp.val,
        s.pop = some (s.stack[s.sp.val - 1]'(by omega), { s with sp := ⟨s.sp.val - 1, by omega⟩ }) := by
  unfold State.pop
  split
  · exact .inl ⟨‹_›, rfl⟩
  · exact .inr ⟨by omega, rfl⟩

/-! ### Data accesses (spec/20_memory.md R56) -/

/-- The address check in words: some byte of the block lies at 4096 or above. -/
theorem State.blockOutOfRange_iff (s : State) (count : Nat) :
    s.blockOutOfRange count = true ↔ 0 < count ∧ 4096 < s.i.toNat + count := by
  simp only [State.blockOutOfRange, Bool.and_eq_true, decide_eq_true_eq]
  simp only [State.dataAddr, Config.memSize]
  omega

/-- The check comes first: either the fault and nothing else, or the body. -/
theorem State.withBlock_cases (s : State) (count : Nat) (body : State) :
    (0 < count ∧ 4096 < s.i.toNat + count ∧ s.withBlock count body = raise .dataAddressOutOfRange s) ∨
      ((count = 0 ∨ s.i.toNat + count ≤ 4096) ∧ s.withBlock count body = .next body) := by
  unfold State.withBlock
  have := State.blockOutOfRange_iff s count
  split
  · exact .inl ⟨(this.1 ‹_›).1, (this.1 ‹_›).2, rfl⟩
  · refine .inr ⟨?_, rfl⟩
    by_contra hc
    exact ‹¬ _› (this.2 (by omega))

/-! ### Register blocks (spec/43_index_memory.md R189, R191) -/

@[simp] theorem State.regsUpTo_length (s : State) (x : Nibble) : (s.regsUpTo x).length = x.toNat + 1 := by
  have := x.isLt
  simp only [State.regsUpTo, List.length_take, Vector.length_toList]
  omega

/-- The k-th byte of a register block is Vk. -/
theorem State.regsUpTo_getElem (s : State) (x : Nibble) (k : Nat) (hk : k < (s.regsUpTo x).length) :
    (s.regsUpTo x)[k] = s.getV (BitVec.ofNat 4 k) := by
  have := x.isLt
  have h16 : k < 16 := by simp at hk; omega
  simp only [State.regsUpTo, List.getElem_take, Vector.getElem_toList, State.getV, BitVec.toNat_ofNat]
  congr 1
  omega

/-- Filling registers changes V alone. -/
theorem State.fillRegs_eq (s : State) (base count : Nat) :
    s.fillRegs base count = { s with v := (s.fillRegs base count).v } := by
  induction count with
  | zero => rfl
  | succ k ih =>
    unfold State.fillRegs
    rw [ih]
    rfl

/-- Registers below the count receive their memory byte; the others keep their value. -/
theorem State.fillRegs_getV (s : State) (base : Nat) : ∀ (count : Nat) (z : Nibble), count ≤ 16 →
    (s.fillRegs base count).getV z = if z.toNat < count then Memory.read s.mem (base + z.toNat) else s.getV z
  | 0, z, _ => by simp [State.fillRegs]
  | k + 1, z, h => by
    unfold State.fillRegs
    rw [State.getV_setV, State.fillRegs_getV s base k z (by omega)]
    have hz : z = BitVec.ofNat 4 k ↔ z.toNat = k := by
      rw [← BitVec.toNat_inj, BitVec.toNat_ofNat]
      have : k % 2 ^ 4 = k := Nat.mod_eq_of_lt (by omega)
      rw [this]
    by_cases hk : z.toNat = k
    · simp [hz, hk]
    · by_cases hlt : z.toNat < k
      · have : z.toNat < k + 1 := by omega
        simp [hz, hk, hlt, this]
      · have : ¬ z.toNat < k + 1 := by omega
        simp [hz, hk, hlt, this]

/-! ### Result and flag (spec/42_alu.md R150) -/

/-- Writing a result and a flag changes V alone. -/
theorem State.writeFlagged_eq (s : State) (result flag : Byte → Byte → Byte) (x y : Nibble) :
    s.writeFlagged result flag x y = { s with v := (s.writeFlagged result flag x y).v } := by
  unfold State.writeFlagged
  split <;> rfl

/-- FLAG_LAST: VF ends as the flag; Vx, when it is not VF, as the result, both of the values at the start. -/
theorem State.writeFlagged_flagLast (s : State) (result flag : Byte → Byte → Byte) (x y z : Nibble)
    (h : s.params.vfOrder = .flagLast) :
    (s.writeFlagged result flag x y).getV z
      = if z = vf then flag (s.getV x) (s.getV y) else if z = x then result (s.getV x) (s.getV y) else s.getV z := by
  simp [State.writeFlagged, h]

/-- SEQUENTIAL: the flag is written, then Vx receives the result of the registers that the flag's write leaves. -/
theorem State.writeFlagged_sequential (s : State) (result flag : Byte → Byte → Byte) (x y z : Nibble)
    (h : s.params.vfOrder = .sequential) :
    (s.writeFlagged result flag x y).getV z
      = if z = x then
          result (if x = vf then flag (s.getV x) (s.getV y) else s.getV x)
            (if y = vf then flag (s.getV x) (s.getV y) else s.getV y)
        else if z = vf then flag (s.getV x) (s.getV y) else s.getV z := by
  simp [State.writeFlagged, h]

/-! ### Keys (spec/45_keys_timers.md R230 to R235) -/

/-- A register value names a key exactly when it is at most 15 (R232). -/
theorem State.keyAt_cases (s : State) (b : Byte) :
    (∃ h : b.toNat < 16, s.keyAt b = some s.key[b.toNat]) ∨ (16 ≤ b.toNat ∧ s.keyAt b = none) := by
  unfold State.keyAt
  by_cases h : b.toNat < 16
  · exact .inl ⟨h, by simp [h]⟩
  · exact .inr ⟨by omega, by simp; omega⟩

/-- What a key test can do. -/
theorem State.keySkip_cases (s : State) (x : Nibble) (want : Bool) :
    (∃ h : (s.getV x).toNat < 16, s.keySkip x want = .next (s.skipIf (s.key[(s.getV x).toNat] == want))) ∨
      (16 ≤ (s.getV x).toNat ∧ s.params.keyIndexOor = .fault ∧ s.keySkip x want = raise .keyIndexOutOfRange s) ∨
      (16 ≤ (s.getV x).toNat ∧ s.params.keyIndexOor = .noSkipNoop ∧ s.keySkip x want = .next s.advance) := by
  unfold State.keySkip
  rcases State.keyAt_cases s (s.getV x) with ⟨h, hk⟩ | ⟨h, hk⟩
  · exact .inl ⟨h, by rw [hk]⟩
  · rw [hk]
    cases hp : s.params.keyIndexOor
    · exact .inr (.inl ⟨h, rfl, rfl⟩)
    · exact .inr (.inr ⟨h, rfl, rfl⟩)

/-- The lowest pressed key is pressed, and no key below it is (R235). -/
theorem State.lowestKey_some {s : State} {k : Nat} (h : s.lowestKey = some k) :
    ∃ hk : k < 16, s.key[k] = true ∧ ∀ j, (hj : j < k) → s.key[j] = false := by
  unfold State.lowestKey at h
  rw [List.findIdx?_eq_some_iff_getElem] at h
  obtain ⟨hlen, hp, hbelow⟩ := h
  have hk : k < 16 := by simpa using hlen
  refine ⟨hk, by simpa using hp, fun j hj => ?_⟩
  have := hbelow j hj
  simpa using this

/-- No lowest pressed key: no key is pressed (R235). -/
theorem State.lowestKey_none {s : State} (h : s.lowestKey = none) (k : Nat) (hk : k < 16) : s.key[k] = false := by
  unfold State.lowestKey at h
  rw [List.findIdx?_eq_none_iff] at h
  have := h s.key[k] (by simp)
  simpa using this

end Sys2Proof.Machine
end

