-- ==== Sys2Proof/Laws/Host.lean ====
section
/-! SUPPORT. What a cycle, a tick and the host's operations can do, each said once (spec/40_cycle.md R90,
spec/60_exceptions.md R262 to R271, spec/70_reset_and_hazards.md R290 to R293). -/

namespace Sys2Proof.Machine

theorem State.fetchOutOfRange_iff (s : State) : s.fetchOutOfRange = true ↔ 0xFFF ≤ s.pc.toNat := by
  simp only [State.fetchOutOfRange, decide_eq_true_eq]

/-- The three things a cycle can be. -/
theorem cycle_cases (s : State) :
    (∃ k, s.fault = some k ∧ cycle s = .fault (.halted k)) ∨
      (s.fault = none ∧ 0xFFF ≤ s.pc.toNat ∧ cycle s = .next { s with fault := some .addressOutOfRange }) ∨
      (s.fault = none ∧ s.pc.toNat < 0xFFF ∧ cycle s = exec (decode s.params s.fetchWord) s) := by
  have hf := State.fetchOutOfRange_iff s
  unfold cycle
  cases hs : s.fault with
  | some k => exact .inl ⟨k, rfl, rfl⟩
  | none =>
    by_cases h : 0xFFF ≤ s.pc.toNat
    · exact .inr (.inl ⟨rfl, h, by rw [if_pos (hf.2 h)]; rfl⟩)
    · exact .inr (.inr ⟨rfl, by omega, by rw [if_neg (fun e => h (hf.1 e))]⟩)

/-- A timer after one tick. -/
theorem tickDown_toNat (b : Byte) : (tickDown b).toNat = b.toNat - 1 := by
  revert b
  decide

theorem tick_cases (s : State) :
    (∃ k, s.fault = some k ∧ tick s = .fault (.halted k)) ∨
      (s.fault = none ∧ tick s = .next { s with dt := tickDown s.dt, st := tickDown s.st }) := by
  unfold tick
  cases hs : s.fault with
  | some k => exact .inl ⟨k, rfl, rfl⟩
  | none => exact .inr ⟨rfl, by simp [State.setDt, State.setSt, hs]⟩

/-- The key latch after `set_key` with an index of 0 to 15. -/
theorem setKey_inside (index : Int) (pressed : Bool) (s : State) (h : 0 ≤ index ∧ index < 16) :
    setKey index pressed s = { s with key := s.key.set index.toNat pressed (by omega) } := by
  unfold setKey
  rw [dif_pos h]

theorem setKey_outside (index : Int) (pressed : Bool) (s : State) (h : index < 0 ∨ 15 < index) :
    setKey index pressed s = s := by
  unfold setKey
  rw [dif_neg (by omega)]

theorem loadStatus_ok {len : Nat} (h : len ≤ 3584) : loadStatus len = .ok := by
  unfold loadStatus
  rw [if_neg]
  change ¬ 3584 < len
  omega

theorem loadStatus_outOfBounds {len : Nat} (h : 3584 < len) : loadStatus len = .outOfBounds := by
  unfold loadStatus
  rw [if_pos]
  exact h

theorem loadProgram_fits {bytes : List Byte} (h : bytes.length ≤ 3584) (s : State) :
    loadProgram bytes s = { s with mem := Memory.writeBlock s.mem 0x200 bytes } := by
  unfold loadProgram
  rw [loadStatus_ok h]
  rfl

theorem loadProgram_rejects {bytes : List Byte} (h : 3584 < bytes.length) (s : State) : loadProgram bytes s = s := by
  unfold loadProgram
  rw [loadStatus_outOfBounds h]

/-- The state right after reset is the one that reset does not change. -/
theorem atReset_iff (s : State) : atReset s = true ↔ resetBlock s = s := by
  obtain ⟨mem, v, i, pc, stack, sp, dt, st, disp, key, fault, params, draws, pending⟩ := s
  simp only [atReset, resetBlock, State.reset, Display.clear, Bool.and_eq_true, beq_iff_eq, State.mk.injEq]
  grind

/-- After a reset the block is in that state. -/
theorem atReset_resetBlock (s : State) : atReset (resetBlock s) = true := (atReset_iff _).2 rfl

/-- The two things the boot's font write can do. -/
theorem bootFont_cases (s : State) :
    (resetBlock s = s ∧ bootFont s = .next (writeFont s)) ∨
      (resetBlock s ≠ s ∧ bootFont s = .fault .fontWriteOutsideBoot) := by
  unfold bootFont
  by_cases h : resetBlock s = s
  · exact .inl ⟨h, if_pos ((atReset_iff s).2 h)⟩
  · exact .inr ⟨h, if_neg (fun e => h ((atReset_iff s).1 e))⟩

/-- The boot's font write changes memory only. -/
theorem writeFont_eq (s : State) : writeFont s = { s with mem := (writeFont s).mem } := by
  unfold writeFont
  split <;> rfl

theorem writeFont_mem (s : State) :
    (writeFont s).mem = match s.params.fontImage with
      | some image => Memory.writeBlock s.mem 0 image.toList
      | none => s.mem := by
  unfold writeFont
  cases s.params.fontImage <;> rfl

/-- `loadProgram` keeps the canonical form. -/
theorem loadProgram_wf {s : State} (bytes : List Byte) (h : Memory.wf s.mem = true) :
    Memory.wf (loadProgram bytes s).mem = true := by
  by_cases hl : bytes.length ≤ 3584
  · rw [loadProgram_fits hl]
    exact Memory.wf_writeBlock h (by omega)
  · rw [loadProgram_rejects (by omega)]
    exact h

/-- `writeFont` keeps the canonical form. -/
theorem writeFont_wf {s : State} (h : Memory.wf s.mem = true) : Memory.wf (writeFont s).mem = true := by
  rw [writeFont_mem]
  split
  · exact Memory.wf_writeBlock h (by rw [Vector.length_toList]; omega)
  · exact h

end Sys2Proof.Machine
end

