-- ==== Sys2Proof/Laws/PerInstr.lean ====
section
/-! SUPPORT. Statements for every instruction, one lemma per constructor. EncodesRow: the word of an instruction carries, under
its row's mask, the row's match value (spec/30_encoding.md R72 and R74). -/

namespace Sys2Proof.Laws.EncodesRow

/-- The encoder writes the fixed bits of the instruction's row of spec/opcode_table.json. -/
def Statement (i : Instr) : Prop := encode i &&& i.row.2 = i.row.1

/-- A word of format `nnn` under the mask 0xF000. -/
theorem maskNnn (f : Nibble) (nnn : Addr) : Layout.nnn f nnn &&& 0xF000#16 = Layout.nnn f 0#12 := by
  apply BitVec.eq_of_getLsbD_eq
  intro i hi
  rw [BitVec.getLsbD_and, Layout.getLsbD_nnn, Layout.getLsbD_nnn]
  interval_cases i <;> simp

/-- A word of format `xnn` under the mask 0xF000. -/
theorem maskXnn (f x : Nibble) (nn : Byte) : Layout.xnn f x nn &&& 0xF000#16 = Layout.xnn f 0#4 0#8 := by
  apply BitVec.eq_of_getLsbD_eq
  intro i hi
  rw [BitVec.getLsbD_and, Layout.getLsbD_xnn, Layout.getLsbD_xnn]
  interval_cases i <;> simp

/-- A word of format `x_func` under the mask 0xF0FF. -/
theorem maskXFunc (f x : Nibble) (nn : Byte) : Layout.xnn f x nn &&& 0xF0FF#16 = Layout.xnn f 0#4 nn := by
  apply BitVec.eq_of_getLsbD_eq
  intro i hi
  rw [BitVec.getLsbD_and, Layout.getLsbD_xnn, Layout.getLsbD_xnn]
  interval_cases i <;> simp

/-- A word of format `xy_func` under the mask 0xF00F. -/
theorem maskXyFunc (f x y n : Nibble) : Layout.xyn f x y n &&& 0xF00F#16 = Layout.xyn f 0#4 0#4 n := by
  apply BitVec.eq_of_getLsbD_eq
  intro i hi
  rw [BitVec.getLsbD_and, Layout.getLsbD_xyn, Layout.getLsbD_xyn]
  interval_cases i <;> simp

/-- A word of format `xyn` under the mask 0xF000. -/
theorem maskXyn (f x y n : Nibble) : Layout.xyn f x y n &&& 0xF000#16 = Layout.xyn f 0#4 0#4 0#4 := by
  apply BitVec.eq_of_getLsbD_eq
  intro i hi
  rw [BitVec.getLsbD_and, Layout.getLsbD_xyn, Layout.getLsbD_xyn]
  interval_cases i <;> simp

theorem cls : Statement (.cls) := rfl

theorem ret : Statement (.ret) := rfl

theorem jp (nnn : Addr) : Statement (.jp nnn) := maskNnn _ _

theorem call (nnn : Addr) : Statement (.call nnn) := maskNnn _ _

theorem seByte (x : Nibble) (nn : Byte) : Statement (.seByte x nn) := maskXnn _ _ _

theorem sneByte (x : Nibble) (nn : Byte) : Statement (.sneByte x nn) := maskXnn _ _ _

theorem seReg (x y : Nibble) : Statement (.seReg x y) := maskXyFunc _ _ _ _

theorem ldByte (x : Nibble) (nn : Byte) : Statement (.ldByte x nn) := maskXnn _ _ _

theorem addByte (x : Nibble) (nn : Byte) : Statement (.addByte x nn) := maskXnn _ _ _

theorem ldReg (x y : Nibble) : Statement (.ldReg x y) := maskXyFunc _ _ _ _

theorem orReg (x y : Nibble) : Statement (.orReg x y) := maskXyFunc _ _ _ _

theorem andReg (x y : Nibble) : Statement (.andReg x y) := maskXyFunc _ _ _ _

theorem xorReg (x y : Nibble) : Statement (.xorReg x y) := maskXyFunc _ _ _ _

theorem addReg (x y : Nibble) : Statement (.addReg x y) := maskXyFunc _ _ _ _

theorem sub (x y : Nibble) : Statement (.sub x y) := maskXyFunc _ _ _ _

theorem shr (x y : Nibble) : Statement (.shr x y) := maskXyFunc _ _ _ _

theorem subn (x y : Nibble) : Statement (.subn x y) := maskXyFunc _ _ _ _

theorem shl (x y : Nibble) : Statement (.shl x y) := maskXyFunc _ _ _ _

theorem sneReg (x y : Nibble) : Statement (.sneReg x y) := maskXyFunc _ _ _ _

theorem ldI (nnn : Addr) : Statement (.ldI nnn) := maskNnn _ _

theorem jpV0 (nnn : Addr) : Statement (.jpV0 nnn) := maskNnn _ _

theorem rnd (x : Nibble) (nn : Byte) : Statement (.rnd x nn) := maskXnn _ _ _

theorem drw (x y n : Nibble) : Statement (.drw x y n) := maskXyn _ _ _ _

theorem skp (x : Nibble) : Statement (.skp x) := maskXFunc _ _ _

theorem sknp (x : Nibble) : Statement (.sknp x) := maskXFunc _ _ _

theorem ldVxDt (x : Nibble) : Statement (.ldVxDt x) := maskXFunc _ _ _

theorem ldVxK (x : Nibble) : Statement (.ldVxK x) := maskXFunc _ _ _

theorem ldDtVx (x : Nibble) : Statement (.ldDtVx x) := maskXFunc _ _ _

theorem ldStVx (x : Nibble) : Statement (.ldStVx x) := maskXFunc _ _ _

theorem addI (x : Nibble) : Statement (.addI x) := maskXFunc _ _ _

theorem ldF (x : Nibble) : Statement (.ldF x) := maskXFunc _ _ _

theorem ldB (x : Nibble) : Statement (.ldB x) := maskXFunc _ _ _

theorem storeRegs (x : Nibble) : Statement (.storeRegs x) := maskXFunc _ _ _

theorem loadRegs (x : Nibble) : Statement (.loadRegs x) := maskXFunc _ _ _

theorem unmatched (op : Word) : Statement (.unmatched op) := BitVec.and_zero

end Sys2Proof.Laws.EncodesRow
end

