-- ==== Sys2Proof/Tests/Slice0.lean ====
section
/-! SUPPORT. Tests: ill-formed terms refused, one written-out word per row, single steps on the vectors of
spec/95_test_vectors.md (named in each comment), and for every statement a state that meets its hypotheses. -/

namespace Sys2Proof.Tests

open Sys2Proof Sys2Proof.Machine

/-! ### Helpers -/

/-- The next state, if there is one. -/
def nextOf : Result → Option State
  | .next t => some t
  | _ => none

/-- The reset state with some registers set and I set. -/
def regs (vs : List (Nibble × Byte)) (i : Word := 0) : State :=
  (vs.foldl (fun s p => s.setV p.1 p.2) State.reset).setI i

/-- A state with the other value of VF_ORDER. -/
def seqOrder (s : State) : State := withOrder s .sequential

/-- The state after one step with the word `op` at pc. -/
def after (op : Word) (s : State) : Option State :=
  nextOf (step { s with mem := Memory.writeBlock s.mem s.pc.toNat (wordBytes op) })

/-- A byte placed in memory. -/
def poke (a : Nat) (b : Byte) (s : State) : State := { s with mem := Memory.write s.mem a b }

/-- One pixel set on a clear display. -/
def pixel (r : Fin 32) (c : Fin 64) (s : State) : State := { s with disp := Display.flip Display.clear r c }

/-! ### WellFormed refuses -/

theorem test_wf_jpV0_refused_by_default : (Instr.jpV0 0x300#12).wellFormed defaultParams = false := by decide
theorem test_wf_unmatched_refuses_selected_word : (Instr.unmatched 0x1234#16).wellFormed defaultParams = false := by decide
theorem test_wf_unmatched_5xy1_refused_under_ignore :
    (Instr.unmatched 0x5121#16).wellFormed { defaultParams with lowNibble := .ignore } = false := by decide
theorem test_wf_unmatched_9xy1_refused_under_ignore :
    (Instr.unmatched 0x9121#16).wellFormed { defaultParams with lowNibble := .ignore } = false := by decide
theorem test_wf_unmatched_Bnnn_refused_under_jump : (Instr.unmatched 0xB300#16).wellFormed tableParams = false := by decide
theorem test_wf_unmatched_fixed_words_refused :
    (Instr.unmatched 0x00E0#16).wellFormed defaultParams = false
      ∧ (Instr.unmatched 0x00EE#16).wellFormed defaultParams = false := by decide
theorem test_wf_unmatched_8_E_F_refused :
    (Instr.unmatched 0x812E#16).wellFormed defaultParams = false
      ∧ (Instr.unmatched 0xE19E#16).wellFormed defaultParams = false
      ∧ (Instr.unmatched 0xF165#16).wellFormed defaultParams = false := by decide
theorem test_wf_cycles_per_frame_at_least_one :
    ({ defaultParams with cyclesPerFrame := some 0 } : Params).wellFormed = false
      ∧ ({ defaultParams with cyclesPerFrame := some 1 } : Params).wellFormed = true
      ∧ defaultParams.wellFormed = true := by decide

/-! ### Decoding: one word per row, written out from the encodings of spec/30_encoding.md R72 and R74 -/

theorem test_decode_0 : decode defaultParams 0b0000_0000_1110_0000#16 = .cls
    ∧ decode defaultParams 0b0000_0000_1110_1110#16 = .ret := by decide
theorem test_decode_1 : decode defaultParams 0b0001_0010_0011_0100#16 = .jp 0x234#12 := by decide
theorem test_decode_2 : decode defaultParams 0b0010_0011_0000_0000#16 = .call 0x300#12 := by decide
theorem test_decode_3 : decode defaultParams 0b0011_0011_0100_0010#16 = .seByte 0x3#4 0x42#8 := by decide
theorem test_decode_4 : decode defaultParams 0b0100_0011_0100_0010#16 = .sneByte 0x3#4 0x42#8 := by decide
theorem test_decode_5 : decode defaultParams 0b0101_0001_0010_0000#16 = .seReg 0x1#4 0x2#4 := by decide
theorem test_decode_6 : decode defaultParams 0b0110_1010_0011_1100#16 = .ldByte 0xA#4 0x3C#8 := by decide
theorem test_decode_7 : decode defaultParams 0b0111_0000_1111_1111#16 = .addByte 0x0#4 0xFF#8 := by decide
theorem test_decode_8_logic : decode defaultParams 0b1000_0001_0010_0000#16 = .ldReg 0x1#4 0x2#4
    ∧ decode defaultParams 0b1000_0001_0010_0001#16 = .orReg 0x1#4 0x2#4
    ∧ decode defaultParams 0b1000_0001_0010_0010#16 = .andReg 0x1#4 0x2#4
    ∧ decode defaultParams 0b1000_0001_0010_0011#16 = .xorReg 0x1#4 0x2#4 := by decide
theorem test_decode_8_arith : decode defaultParams 0b1000_0001_0010_0100#16 = .addReg 0x1#4 0x2#4
    ∧ decode defaultParams 0b1000_0001_0010_0101#16 = .sub 0x1#4 0x2#4
    ∧ decode defaultParams 0b1000_0001_0010_0110#16 = .shr 0x1#4 0x2#4
    ∧ decode defaultParams 0b1000_0001_0010_0111#16 = .subn 0x1#4 0x2#4
    ∧ decode defaultParams 0b1000_0001_0010_1110#16 = .shl 0x1#4 0x2#4 := by decide
theorem test_decode_9 : decode defaultParams 0b1001_0001_0010_0000#16 = .sneReg 0x1#4 0x2#4 := by decide
theorem test_decode_A : decode defaultParams 0b1010_0011_0000_0000#16 = .ldI 0x300#12 := by decide
theorem test_decode_B : decode tableParams 0b1011_0011_0000_0000#16 = .jpV0 0x300#12 := by decide
theorem test_decode_C : decode defaultParams 0b1100_0011_0000_1111#16 = .rnd 0x3#4 0x0F#8 := by decide
theorem test_decode_D : decode defaultParams 0b1101_0000_0001_0010#16 = .drw 0x0#4 0x1#4 0x2#4 := by decide
theorem test_decode_E : decode defaultParams 0b1110_0101_1001_1110#16 = .skp 0x5#4
    ∧ decode defaultParams 0b1110_0101_1010_0001#16 = .sknp 0x5#4 := by decide
theorem test_decode_F_timers : decode defaultParams 0b1111_0011_0000_0111#16 = .ldVxDt 0x3#4
    ∧ decode defaultParams 0b1111_0010_0000_1010#16 = .ldVxK 0x2#4
    ∧ decode defaultParams 0b1111_1010_0001_0101#16 = .ldDtVx 0xA#4
    ∧ decode defaultParams 0b1111_0001_0001_1000#16 = .ldStVx 0x1#4 := by decide
theorem test_decode_F_memory : decode defaultParams 0b1111_0010_0001_1110#16 = .addI 0x2#4
    ∧ decode defaultParams 0b1111_0100_0010_1001#16 = .ldF 0x4#4
    ∧ decode defaultParams 0b1111_0000_0011_0011#16 = .ldB 0x0#4
    ∧ decode defaultParams 0b1111_0001_0101_0101#16 = .storeRegs 0x1#4
    ∧ decode defaultParams 0b1111_0010_0110_0101#16 = .loadRegs 0x2#4 := by decide
theorem test_decode_unmatched : decode defaultParams 0x0123#16 = .unmatched 0x0123#16
    ∧ decode defaultParams 0x8128#16 = .unmatched 0x8128#16 ∧ decode defaultParams 0xF075#16 = .unmatched 0xF075#16 := by
  decide
/-- High byte first (R50); the rest of the bytes is left. -/
theorem test_decode_bytes : decodeBytes defaultParams [0x12#8, 0x34#8, 0x00#8] = .ok (.jp 0x234#12, [0x00#8]) := rfl
theorem test_decode_too_short : decodeBytes defaultParams [0x12#8] = .error .tooShort := rfl
theorem test_decode_table_word : decodeTableWord 16 0xB300 = some (.jpV0 0x300#12)
    ∧ decodeTableWord 16 0xD012 = some (.drw 0x0#4 0x1#4 0x2#4) := by decide

/-! ### Control flow -/

/-- C1, C2. -/
theorem test_jp : (after 0x1234 (regs [])).map (·.pc) = some 0x234 ∧ (after 0x1FFF (regs [])).map (·.pc) = some 0xFFF := by
  decide
/-- C4. -/
theorem test_call : (after 0x2300 (regs [])).map (fun t => (t.stack[0], t.sp, t.pc)) = some (0x200, 1, 0x300) := by decide
/-- C5. -/
theorem test_call_overflow : (after 0x2300 { regs [] with sp := 16 }).map (fun t => (t.fault, t.pc, t.sp))
    = some (some .stackOverflow, 0x200, 16) := by decide
/-- C7. -/
theorem test_ret : (after 0x00EE { regs [] with sp := 2, stack := (regs []).stack.set 1 0x456, pc := 0x300 }).map
    (fun t => (t.sp, t.pc, t.stack[1])) = some (1, 0x458, 0x456) := by decide
/-- C6. -/
theorem test_ret_underflow : (after 0x00EE (regs [])).map (fun t => (t.fault, t.pc)) = some (some .stackUnderflow, 0x200) := by
  decide
/-- C8, C9. -/
theorem test_seByte : (after 0x3342 (regs [(3, 0x42)])).map (·.pc) = some 0x204
    ∧ (after 0x3342 (regs [(3, 0x41)])).map (·.pc) = some 0x202 := by decide
/-- C10, C11. -/
theorem test_sneByte : (after 0x4342 (regs [(3, 0x42)])).map (·.pc) = some 0x202
    ∧ (after 0x4342 (regs [(3, 0x41)])).map (·.pc) = some 0x204 := by decide
/-- C12, C13. -/
theorem test_seReg : (after 0x5120 (regs [(1, 7), (2, 7)])).map (·.pc) = some 0x204
    ∧ (after 0x5120 (regs [(1, 7), (2, 8)])).map (·.pc) = some 0x202 := by decide
/-- C14, C15. -/
theorem test_sneReg : (after 0x9120 (regs [(1, 7), (2, 8)])).map (·.pc) = some 0x204
    ∧ (after 0x9110 (regs [(1, 7)])).map (·.pc) = some 0x202 := by decide
/-- C16, both values of LOW_NIBBLE_5_9. -/
theorem test_low_nibble : (after 0x5121 (regs [(1, 7), (2, 7)])).map (·.pc) = some 0x202
    ∧ (after 0x5121 { regs [(1, 7), (2, 7)] with params := { defaultParams with lowNibble := .ignore } }).map (·.pc)
        = some 0x204 := by decide
/-- C17, both values of BNNN_MODE. -/
theorem test_jpV0 : (after 0xB300 (regs [(0, 0x10)])).map (·.pc) = some 0x202
    ∧ (after 0xB300 { regs [(0, 0x10)] with params := tableParams }).map (·.pc) = some 0x310 := by decide
/-- C18, A28. -/
theorem test_unmatched : (after 0x0000 (regs [])).map (·.pc) = some 0x202
    ∧ (after 0x8128 (regs [(1, 3)])).map (fun t => (t.pc, t.getV 1)) = some (0x202, 3) := by decide
/-- C20, C21: the fetch at 0xFFE is legal. -/
theorem test_fetch_at_the_last_word : (after 0x1200 { regs [] with pc := 0xFFE }).map (·.pc) = some 0x200
    ∧ (after 0x0000 { regs [] with pc := 0xFFE }).map (·.pc) = some 0x1000 := by decide
/-- C2, C23: the next cycle faults. -/
theorem test_fetch_out_of_range :
    (nextOf (step { regs [] with pc := 0xFFF })).map (fun t => (t.fault, t.pc)) = some (some .addressOutOfRange, 0xFFF)
    ∧ (nextOf (step { regs [] with pc := 0x1000 })).map (·.fault) = some (some .addressOutOfRange) := by decide

/-! ### ALU -/

/-- A1. -/
theorem test_ldByte : (after 0x6A3C (regs [])).map (·.getV 0xA) = some 0x3C := by decide
/-- A2, A3. -/
theorem test_addByte : (after 0x7001 (regs [(0, 0xFF), (0xF, 0x55)])).map (fun t => (t.getV 0, t.getV 0xF)) = some (0x00, 0x55)
    ∧ (after 0x70FF (regs [(0, 0x05)])).map (·.getV 0) = some 0x04 := by decide
/-- A4. -/
theorem test_ldReg : (after 0x8120 (regs [(2, 0x55)])).map (·.getV 1) = some 0x55 := by decide
/-- A5. -/
theorem test_orReg : (after 0x8121 (regs [(1, 0xF0), (2, 0x0F), (0xF, 0x33)])).map (fun t => (t.getV 1, t.getV 0xF))
    = some (0xFF, 0x33) := by decide
/-- A6. -/
theorem test_andReg : (after 0x8122 (regs [(1, 0xF0), (2, 0x3C)])).map (·.getV 1) = some 0x30 := by decide
/-- A7. -/
theorem test_xorReg : (after 0x8123 (regs [(1, 0xF0), (2, 0x3C)])).map (·.getV 1) = some 0xCC := by decide
/-- S3, A9. -/
theorem test_addReg : (after 0x8124 (regs [(1, 0xFF), (2, 0x01)])).map (fun t => (t.getV 1, t.getV 0xF)) = some (0x00, 1)
    ∧ (after 0x8124 (regs [(1, 0x80), (2, 0x7F), (0xF, 9)])).map (fun t => (t.getV 1, t.getV 0xF)) = some (0xFF, 0) := by decide
/-- A12, both orders. -/
theorem test_addReg_into_vf : (after 0x8F14 (regs [(0xF, 0xFF), (1, 0x01)])).map (·.getV 0xF) = some 1
    ∧ (after 0x8F14 (seqOrder (regs [(0xF, 0xFF), (1, 0x01)]))).map (·.getV 0xF) = some 1 := by decide
/-- S4, A13. -/
theorem test_sub : (after 0x8125 (regs [(1, 0x01), (2, 0x02)])).map (fun t => (t.getV 1, t.getV 0xF)) = some (0xFF, 0)
    ∧ (after 0x8125 (regs [(1, 0x07), (2, 0x07)])).map (fun t => (t.getV 1, t.getV 0xF)) = some (0x00, 1) := by decide
/-- A15, A16, A17, both orders. -/
theorem test_sub_with_vf :
    (after 0x81F5 (regs [(1, 0x05), (0xF, 0x03)])).map (fun t => (t.getV 1, t.getV 0xF)) = some (0x02, 1)
    ∧ (after 0x81F5 (seqOrder (regs [(1, 0x05), (0xF, 0x03)]))).map (fun t => (t.getV 1, t.getV 0xF)) = some (0x04, 1)
    ∧ (after 0x8F15 (regs [(1, 0x03), (0xF, 0x05)])).map (·.getV 0xF) = some 1
    ∧ (after 0x8F15 (seqOrder (regs [(1, 0x03), (0xF, 0x05)]))).map (·.getV 0xF) = some 0xFE
    ∧ (after 0x8FF5 (regs [(0xF, 0x07)])).map (·.getV 0xF) = some 1
    ∧ (after 0x8FF5 (seqOrder (regs [(0xF, 0x07)]))).map (·.getV 0xF) = some 0 := by decide
/-- S5, A19: V2 is ignored. -/
theorem test_shr : (after 0x8106 (regs [(1, 0x81)])).map (fun t => (t.getV 1, t.getV 0xF)) = some (0x40, 1)
    ∧ (after 0x8126 (regs [(1, 0x02), (2, 0xFF)])).map (fun t => (t.getV 1, t.getV 0xF)) = some (0x01, 0) := by decide
/-- A20, both orders. -/
theorem test_shr_vf : (after 0x8F06 (regs [(0xF, 0x81)])).map (·.getV 0xF) = some 1
    ∧ (after 0x8F06 (seqOrder (regs [(0xF, 0x81)]))).map (·.getV 0xF) = some 0 := by decide
/-- A21, A22. -/
theorem test_subn : (after 0x8127 (regs [(1, 0x05), (2, 0x03)])).map (fun t => (t.getV 1, t.getV 0xF)) = some (0xFE, 0)
    ∧ (after 0x8127 (regs [(1, 0x03), (2, 0x05)])).map (fun t => (t.getV 1, t.getV 0xF)) = some (0x02, 1) := by decide
/-- A23, A24, both orders. -/
theorem test_subn_with_vf : (after 0x8F17 (regs [(1, 0x05), (0xF, 0x03)])).map (·.getV 0xF) = some 1
    ∧ (after 0x8F17 (seqOrder (regs [(1, 0x05), (0xF, 0x03)]))).map (·.getV 0xF) = some 0x04
    ∧ (after 0x81F7 (regs [(1, 0x03), (0xF, 0x05)])).map (fun t => (t.getV 1, t.getV 0xF)) = some (0x02, 1)
    ∧ (after 0x81F7 (seqOrder (regs [(1, 0x03), (0xF, 0x05)]))).map (fun t => (t.getV 1, t.getV 0xF)) = some (0xFE, 1) := by
  decide
/-- A25, A26. -/
theorem test_shl : (after 0x811E (regs [(1, 0x81)])).map (fun t => (t.getV 1, t.getV 0xF)) = some (0x02, 1)
    ∧ (after 0x810E (regs [(1, 0x40)])).map (fun t => (t.getV 1, t.getV 0xF)) = some (0x80, 0) := by decide
/-- A27, both orders. -/
theorem test_shl_vf : (after 0x8F0E (regs [(0xF, 0x81)])).map (·.getV 0xF) = some 1
    ∧ (after 0x8F0E (seqOrder (regs [(0xF, 0x81)]))).map (·.getV 0xF) = some 0x02 := by decide
/-- A30: with nn = 0 the result is 0 whatever the draw. -/
theorem test_rnd_masked : ∃ t, exec (.rnd 0x3#4 0x00#8) (regs [(3, 9)]) = .next t ∧ t.getV 0x3#4 = 0#8 ∧ t.draws = 1 :=
  ⟨_, rfl, by simp, rfl⟩

/-! ### Index register and memory -/

/-- M1. -/
theorem test_ldI : (after 0xA300 (regs [])).map (·.i) = some 0x300 := by decide
/-- M2, M3, M4. -/
theorem test_addI : (after 0xF21E (regs [(2, 0x10), (0xF, 7)] 0x300)).map (fun t => (t.i, t.getV 0xF)) = some (0x310, 7)
    ∧ (after 0xF21E (regs [(2, 1)] 0xFFF)).map (·.i) = some 0x1000
    ∧ (after 0xF21E (regs [(2, 1)] 0xFFFF)).map (·.i) = some 0x0000 := by decide
/-- M5, M6. -/
theorem test_ldF : (after 0xF429 (regs [(4, 0x07)])).map (·.i) = some 0x023
    ∧ (after 0xF429 (regs [(4, 0x1A)])).map (·.i) = some 0x032 := by decide
/-- M7. -/
theorem test_ldB : (after 0xF033 (regs [(0, 0xFE)] 0x300)).map
    (fun t => (Memory.read t.mem 0x300, Memory.read t.mem 0x301, Memory.read t.mem 0x302, t.i)) = some (2, 5, 4, 0x300) := by
  decide
/-- M10, M11. -/
theorem test_ldB_at_the_top :
    (after 0xF033 (regs [(0, 0x64)] 0xFFE)).map (fun t => (t.fault, Memory.read t.mem 0xFFE))
      = some (some .dataAddressOutOfRange, 0)
    ∧ (after 0xF033 (regs [(0, 0x64)] 0xFFD)).map (fun t => (t.fault, Memory.read t.mem 0xFFD)) = some (none, 1) := by decide
/-- M12. -/
theorem test_storeRegs : (after 0xF155 (regs [(0, 0x11), (1, 0x22), (2, 0x33)] 0x400)).map
    (fun t => (Memory.read t.mem 0x400, Memory.read t.mem 0x401, Memory.read t.mem 0x402, t.i)) = some (0x11, 0x22, 0, 0x400) := by
  decide
/-- M14, M15. -/
theorem test_storeRegs_at_the_top : (after 0xFF55 (regs [(0xF, 0x0F)] 0xFF1)).map (·.fault) = some (some .dataAddressOutOfRange)
    ∧ (after 0xFF55 (regs [(0xF, 0x0F)] 0xFF0)).map (fun t => (t.fault, Memory.read t.mem 0xFFF)) = some (none, 0x0F) := by
  decide
/-- M16. -/
theorem test_loadRegs : (after 0xF265 (poke 0x300 2 (poke 0x301 5 (poke 0x302 4 (poke 0x303 8 (regs [(3, 0x99)] 0x300)))))).map
    (fun t => (t.getV 0, t.getV 1, t.getV 2, t.getV 3, t.i)) = some (2, 5, 4, 0x99, 0x300) := by decide
/-- M17, M18. -/
theorem test_loadRegs_vf_and_top : (after 0xFF65 (poke 0x40F 0xAB (regs [] 0x400))).map (·.getV 0xF) = some 0xAB
    ∧ (after 0xF065 (regs [] 0x1000)).map (·.fault) = some (some .dataAddressOutOfRange) := by decide

/-! ### Display -/

/-- D1. -/
theorem test_cls : (after 0x00E0 (pixel 3 5 (regs [(0xF, 7)]))).map (fun t => (Display.get t.disp 3 5, t.getV 0xF))
    = some (false, 7) := by decide
/-- D4 (horizontal wrap), D5 (vertical wrap), D7 (a collision; bit 7 is leftmost). -/
theorem test_drw : (after 0xD011 (poke 0x300 0xFF (regs [(0, 0x3C), (1, 0x1F), (0xF, 7)] 0x300))).map
    (fun t => (Display.get t.disp 31 60, Display.get t.disp 31 3, Display.get t.disp 31 4, Display.get t.disp 31 59, t.getV 0xF))
      = some (true, true, false, false, 0)
    ∧ (after 0xD012 (poke 0x300 0x80 (poke 0x301 0x80 (regs [(1, 0x1F)] 0x300)))).map
    (fun t => (Display.get t.disp 31 0, Display.get t.disp 0 0, t.getV 0xF)) = some (true, true, 0)
    ∧ (after 0xD011 (poke 0x300 0xC0 (pixel 0 1 (regs [] 0x300)))).map
    (fun t => (Display.get t.disp 0 0, Display.get t.disp 0 1, t.getV 0xF)) = some (true, false, 1) := by decide
/-- D9 (no rows), D11 (past the top), D12 (VF is read as a coordinate before it is written). -/
theorem test_drw_edges : (after 0xD010 (regs [(0xF, 0x55)] 0xFFF)).map (fun t => (t.fault, t.getV 0xF)) = some (none, 0)
    ∧ (after 0xD012 (regs [(0xF, 0x55)] 0xFFF)).map (fun t => (t.fault, t.getV 0xF))
        = some (some .dataAddressOutOfRange, 0x55)
    ∧ (after 0xDF11 (poke 0x300 0x80 (regs [(0xF, 0x05), (1, 0x02)] 0x300))).map
    (fun t => (Display.get t.disp 2 5, t.getV 0xF)) = some (true, 0) := by decide

/-! ### Keys, timers, host -/

/-- A state with one key pressed. -/
def pressed (k : Fin 16) (s : State) : State := { s with key := s.key.set k.val true }

/-- K1, K2. -/
theorem test_skp : (after 0xE59E (pressed 0xA (regs [(5, 0x0A)]))).map (·.pc) = some 0x204
    ∧ (after 0xE59E (regs [(5, 0x0A)])).map (·.pc) = some 0x202 := by decide
/-- K3, K4. -/
theorem test_sknp : (after 0xE5A1 (pressed 0xA (regs [(5, 0x0A)]))).map (·.pc) = some 0x202
    ∧ (after 0xE5A1 (regs [(5, 0x0A)])).map (·.pc) = some 0x204 := by decide
/-- K5, both values of KEY_INDEX_OOR. -/
theorem test_key_index_out_of_range :
    (after 0xE59E (regs [(5, 0x10)])).map (fun t => (t.fault, t.pc)) = some (some .keyIndexOutOfRange, 0x200)
    ∧ (after 0xE5A1 { regs [(5, 0x10)] with params := { defaultParams with keyIndexOor := .noSkipNoop } }).map
        (fun t => (t.fault, t.pc)) = some (none, 0x202) := by decide
/-- K6, K8. -/
theorem test_ldVxK : (after 0xF20A { regs [(2, 9)] with pc := 0x210 }).map (fun t => (t.pc, t.getV 2)) = some (0x210, 9)
    ∧ (after 0xF20A (pressed 3 (pressed 9 { regs [(2, 9)] with pc := 0x210 }))).map (fun t => (t.pc, t.getV 2))
        = some (0x212, 3) := by decide
/-- K10. -/
theorem test_ldVxDt : (after 0xF307 { regs [] with dt := 0x2A }).map (·.getV 3) = some 0x2A := by decide
/-- K11. -/
theorem test_ldDtVx : (after 0xFA15 (regs [(0xA, 0x3C)])).map (·.dt) = some 0x3C := by decide
/-- K12. -/
theorem test_ldStVx : (after 0xF118 (regs [(1, 0x05)])).map (fun t => (t.st, soundOutput t)) = some (5, true) := by decide
/-- K13, K14. -/
theorem test_tick : (nextOf (step { regs [] with dt := 5, st := 1, pending := [.tick] })).map
    (fun t => (t.dt, t.st, soundOutput t)) = some (4, 0, false)
    ∧ (nextOf (step { regs [] with pending := [.tick] })).map (fun t => (t.dt, t.st)) = some (0, 0) := by decide
/-- K15. -/
theorem test_no_tick_when_halted : step { regs [] with fault := some .stackOverflow, dt := 5, pending := [.tick] }
    = .fault (.halted .stackOverflow) := rfl
/-- K17, K18. -/
theorem test_set_key : (nextOf (step { regs [] with pending := [.setKey 16 true] })).map (·.key) = some State.reset.key
    ∧ (nextOf (step { regs [] with pending := [.setKey 4 true] })).map (fun t => (t.key[4], t.key[5])) = some (true, false) := by
  decide
/-- S10: the largest ROM and one byte more. -/
theorem test_load_status : loadStatus 3584 = .ok ∧ loadStatus 3585 = .outOfBounds := by decide
theorem test_load_program : (nextOf (step { regs [] with pending := [.loadProgram [0x12, 0x34]] })).map
    (fun t => (Memory.read t.mem 0x200, Memory.read t.mem 0x201, t.fetchWord, t.pc)) = some (0x12, 0x34, 0x1234, 0x200) := by
  decide
/-- R253, R290: reset ends a fault. -/
theorem test_reset_ends_a_fault : (nextOf (step { regs [(1, 7)] with fault := some .stackOverflow, pending := [.reset] })).map
    (fun t => (t.fault, t.getV 1, t.pc)) = some (none, 0, 0x200) := by decide
/-- R292: the font image, here 80 bytes of 0xF0, at 0x000 to 0x04F. -/
theorem test_write_font : (nextOf (step { regs [] with
    params := { defaultParams with fontImage := some (Vector.replicate 80 0xF0) }, pending := [.writeFont] })).map
    (fun t => (Memory.read t.mem 0, Memory.read t.mem 79, Memory.read t.mem 80)) = some (0xF0, 0xF0, 0) := by decide
/-- R292, R65: the font write is not taken after a load, after a cycle or in a halted block. -/
theorem test_no_font_write_outside_boot : bootFont (loadProgram [0x12] (regs [])) = .fault .fontWriteOutsideBoot
    ∧ bootFont { regs [] with pc := 0x202 } = .fault .fontWriteOutsideBoot
    ∧ bootFont { regs [] with fault := some .stackOverflow } = .fault .fontWriteOutsideBoot := ⟨rfl, rfl, rfl⟩
/-- R250: the codes. -/
theorem test_fault_codes : faultCode none = 0 ∧ faultCode (some .addressOutOfRange) = 1 ∧ faultCode (some .stackOverflow) = 2
    ∧ faultCode (some .stackUnderflow) = 3 ∧ faultCode (some .dataAddressOutOfRange) = 4
    ∧ faultCode (some .keyIndexOutOfRange) = 5 := by decide
/-- The host's placement of a word: the next step runs it, a word of family 0xB too. -/
theorem test_withFetchWord : (nextOf (step (State.reset.withFetchWord 16 0x6A3C))).map (·.getV 0xA) = some 0x3C
    ∧ (nextOf (step (State.reset.withFetchWord 16 0xB300))).map (·.pc) = some 0x300 := by decide

/-! ### Witnesses: states and operands that meet the hypotheses of each statement, at the ends of each clause's range.
A statement that is not named here has no hypothesis. -/

/-- Parameters that differ from the defaults wherever a statement asks for the other value. -/
def otherParams : Params :=
  { defaultParams with vfOrder := .sequential, bnnnMode := .jumpV0, lowNibble := .ignore, keyIndexOor := .noSkipNoop }

/-- Whether a result is a next state. -/
def isNext (r : Result) : Bool := (nextOf r).isSome

/-- A result that is a next state gives one. -/
theorem next_of_isNext {r : Result} (h : isNext r = true) : ∃ t, r = .next t := by
  cases r with
  | next t => exact ⟨t, rfl⟩
  | fault f => cases h
  | refused w => cases h

/-- A result whose next state passes a check gives a next state that does. -/
theorem next_with {r : Result} (check : State → Bool) (h : (nextOf r).map check = some true) :
    ∃ t, r = .next t ∧ check t = true := by
  obtain ⟨t, ht, hc⟩ := Option.map_eq_some_iff.1 h
  cases r with
  | next t' => exact ⟨t, by rw [Option.some.inj ht], hc⟩
  | fault f => cases ht
  | refused w => cases ht

/-- DecodeInvertsEncode: the forms whose well-formedness is not constant. -/
theorem witness_DecodeInvertsEncode : (Instr.jpV0 0xFFF#12).wellFormed otherParams = true
    ∧ (Instr.unmatched 0xB300#16).wellFormed defaultParams = true ∧ (Instr.unmatched 0xFFFF#16).wellFormed otherParams = true := by
  decide
theorem witness_EncodeInvertsDecodeUnderStrict : defaultParams.lowNibble = .strict := rfl
/-- UnmatchedWordsAreTheListedNoOps: a word on each side of each line of the list. -/
theorem witness_UnmatchedWordsAreTheListedNoOps :
    [0x0000#16, 0x0FFF#16, 0x5001#16, 0x9FFF#16, 0x8008#16, 0x800D#16, 0x800F#16, 0xB000#16, 0xE09D#16, 0xF066#16].all
      (fun op => decode defaultParams op == .unmatched op) = true
    ∧ [0x00E0#16, 0x00EE#16, 0x5000#16, 0x9FF0#16, 0x8007#16, 0x800E#16, 0xC000#16, 0xE09E#16, 0xF065#16].all
      (fun op => decode defaultParams op != .unmatched op) = true := by decide
theorem witness_LowNibbleDecidesFamiliesFiveAndNine :
    0x1#4 ≠ 0#4 ∧ 0xF#4 ≠ 0#4 ∧ (regs []).params.lowNibble = .strict
    ∧ ({ regs [] with params := otherParams } : State).params.lowNibble = .ignore := by decide
theorem witness_BnnnModeDecidesFamilyB : (regs []).params.bnnnMode = .unmatched
    ∧ ({ regs [] with params := otherParams } : State).params.bnnnMode = .jumpV0 := by decide
theorem witness_DecodeSelectsATableRow : defaultParams.lowNibble = .strict ∧ (Instr.subn 0xF#4 0x0#4).wellFormed defaultParams = true
    ∧ (Instr.subn 0xF#4 0x0#4).row.2 ≠ 0#16 ∧ 0x8F07#16 &&& (Instr.subn 0xF#4 0x0#4).row.2 = (Instr.subn 0xF#4 0x0#4).row.1 := by
  decide
/-- StepRunsDecodedInstruction: the highest pc, for a step of each kind. -/
theorem witness_StepRunsDecodedInstruction : ∃ s : State, s.fault = none ∧ s.pc.toNat < 0xFFF ∧ s.pc = 0xFFE#16
    ∧ decodeBytes s.params [Memory.read s.mem s.pc.toNat, Memory.read s.mem (s.pc.toNat + 1)] = .ok (.jp 0x234#12, [])
    ∧ s.pending = [] ∧ ({ s with pending := [.cycle] } : State).pending = .cycle :: [] :=
  ⟨{ poke 0xFFE 0x12 (poke 0xFFF 0x34 (regs [])) with pc := 0xFFE#16 }, by decide, by decide, rfl, by rfl, rfl, rfl⟩
theorem witness_FetchPastTheEndLatchesAddressFault :
    4096 ≤ (0xFFF#16).toNat + 1 ∧ 4096 ≤ (0x1000#16).toNat ∧ 4096 ≤ (0xFFFF#16).toNat ∧ (0xFFE#16).toNat ≤ 0xFFE
    ∧ (regs []).fault = none := by decide
theorem witness_HaltedBlockTakesNoCycleOrTick : (∃ t, hostOp .reset { regs [] with fault := some .stackOverflow } = .next t
      ∧ t.fault ≠ some .stackOverflow) ∧ ∀ ops ∈ [[], [.cycle], [.tick], [.read .fault], [HostOp.reset]],
    ∃ s : State, s.fault = some .stackOverflow ∧ s.pending = ops :=
  ⟨⟨_, rfl, by decide⟩, fun ops _ => ⟨{ regs [] with fault := some .stackOverflow, pending := ops }, rfl, rfl⟩⟩
/-- FaultsExactlyWhereTheTableSays and NextPcFollowsTheTable: each faulting instruction, on both sides of its condition. -/
theorem witness_FaultsExactlyWhereTheTableSays :
    (faultCondition (.call 0x300#12) { regs [] with sp := 16 } = some .stackOverflow
      ∧ faultCondition .ret (regs []) = some .stackUnderflow
      ∧ faultCondition (.drw 0#4 1#4 2#4) (regs [] 0xFFF) = some .dataAddressOutOfRange
      ∧ faultCondition (.ldB 0#4) (regs [] 0xFFE) = some .dataAddressOutOfRange
      ∧ faultCondition (.storeRegs 0xF#4) (regs [] 0xFF1) = some .dataAddressOutOfRange
      ∧ faultCondition (.loadRegs 0#4) (regs [] 0x1000) = some .dataAddressOutOfRange
      ∧ faultCondition (.skp 5#4) (regs [(5, 0x10)]) = some .keyIndexOutOfRange
      ∧ faultCondition (.sknp 5#4) (regs [(5, 0x10)]) = some .keyIndexOutOfRange)
    ∧ (faultCondition (.call 0x300#12) { regs [] with sp := 15 } = none
      ∧ faultCondition .ret { regs [] with sp := 1 } = none
      ∧ faultCondition (.drw 0#4 1#4 1#4) (regs [] 0xFFF) = none ∧ faultCondition (.drw 0#4 1#4 0#4) (regs [] 0xFFFF) = none
      ∧ faultCondition (.ldB 0#4) (regs [] 0xFFD) = none ∧ faultCondition (.storeRegs 0xF#4) (regs [] 0xFF0) = none
      ∧ faultCondition (.loadRegs 0#4) (regs [] 0xFFF) = none ∧ faultCondition (.skp 5#4) (regs [(5, 0x0F)]) = none
      ∧ faultCondition (.sknp 5#4) { regs [(5, 0x10)] with params := otherParams } = none) := by decide
theorem witness_NextPcFollowsTheTable : faultCondition .ret { regs [] with sp := 1 } = none
    ∧ (∃ t, exec .ret { regs [] with sp := 1 } = .next t)
    ∧ faultCondition (.ldVxK 2#4) (pressed 0xF (regs [])) = none ∧ ∃ t, exec (.ldVxK 2#4) (pressed 0xF (regs [])) = .next t :=
  ⟨by decide, next_of_isNext (by decide), by decide, next_of_isNext (by decide)⟩
theorem witness_PlainInstructionsAdvanceByTwo : ∃ s t : State, s.fault = none ∧ s.pc.toNat < 0xFFF ∧ s.pc = 0xFFE#16
    ∧ isControlFlow (decode s.params s.fetchWord) = false ∧ cycle s = .next t ∧ t.fault = none := by
  obtain ⟨t, ht, hc⟩ := next_with (r := cycle { regs [] with pc := 0xFFE#16 }) (fun t => t.fault == none) (by decide)
  exact ⟨_, t, rfl, by decide, rfl, by decide, ht, by simpa using hc⟩
/-- RegistersWrittenFollowTheTable: a load of V0 to V2 does not write V3. -/
theorem witness_RegistersWrittenFollowTheTable : (∃ t, exec (.loadRegs 2#4) (regs []) = .next t)
    ∧ writesV (.loadRegs 2#4) 3#4 = false ∧ writesV (.loadRegs 2#4) 2#4 = true :=
  ⟨next_of_isNext (by decide), by decide, by decide⟩
theorem witness_VfWrittenOnlyAsFlagOrDestination : (∃ t, exec (.loadRegs 0xE#4) (regs []) = .next t)
    ∧ isFlagWriter (.loadRegs 0xE#4) = false ∧ destinationIsVf (.loadRegs 0xE#4) = false ∧ destinationIsVf (.loadRegs 0xF#4) = true :=
  ⟨next_of_isNext (by decide), by decide, by decide, by decide⟩
/-- MemoryWrittenOnlyByFx33AndFx55: the bytes just outside a store. -/
theorem witness_MemoryWrittenOnlyByFx33AndFx55 : MemoryCanonical (regs [(0, 0xFE)] 0x300)
    ∧ (∃ t, exec (.ldB 0#4) (regs [(0, 0xFE)] 0x300) = .next t) ∧ (∃ t, exec (.storeRegs 1#4) (regs [(0, 0xFE)] 0x300) = .next t)
    ∧ storesTo (.ldB 0#4) (regs [(0, 0xFE)] 0x300) 0x2FF = false ∧ storesTo (.ldB 0#4) (regs [(0, 0xFE)] 0x300) 0x303 = false
    ∧ storesTo (.ldB 0#4) (regs [(0, 0xFE)] 0x300) 0x302 = true
    ∧ storesTo (.storeRegs 1#4) (regs [(0, 0xFE)] 0x300) 0x302 = false
    ∧ storesTo (.storeRegs 1#4) (regs [(0, 0xFE)] 0x300) 0x301 = true
    ∧ (∃ t, hostOp .writeFont (bootState { defaultParams with fontImage := some (Vector.replicate 80 0xF0#8) } [] 0) = .next t
      ∧ Memory.read t.mem 79 ≠ 0#8)
    ∧ (∃ t, hostOp (.loadProgram [0x12#8]) (regs []) = .next t ∧ Memory.read t.mem 0x200 ≠ Memory.read (regs []).mem 0x200)
    ∧ resetBlock { regs [] with pc := 0x202 } ≠ { regs [] with pc := 0x202 } :=
  ⟨rfl, next_of_isNext (by decide), next_of_isNext (by decide), by decide, by decide, by decide, by decide, by decide,
    ⟨_, rfl, by decide⟩, ⟨_, rfl, by decide⟩, fun h => absurd (congrArg State.pc h) (by decide)⟩
theorem witness_DisplayWrittenOnlyByClsAndDrw : ∃ t, exec .cls (pixel 3 5 (regs [])) = .next t
    ∧ t.disp ≠ (pixel 3 5 (regs [])).disp :=
  ⟨_, rfl, fun h => absurd (congrArg (fun d => Display.get d 3 5) h) (by decide)⟩
theorem witness_TimersWrittenOnlyByTheirInstructions :
    (∃ t, exec (.ldDtVx 1#4) (regs [(1, 5)]) = .next t ∧ t.dt ≠ (regs [(1, 5)]).dt)
    ∧ (∃ t, exec (.ldStVx 1#4) (regs [(1, 5)]) = .next t ∧ t.st ≠ (regs [(1, 5)]).st)
    ∧ ∃ t, hostOp .tick { regs [] with dt := 1 } = .next t ∧ t.dt ≠ 1 :=
  ⟨⟨_, rfl, by decide⟩, ⟨_, rfl, by decide⟩, ⟨_, rfl, by decide⟩⟩
theorem witness_KeyLatchNeverWrittenByInstructions : ∃ t, exec (.rnd 1#4 0xFF#8) (pressed 3 (regs [])) = .next t
    ∧ t.draws ≠ (pressed 3 (regs [])).draws := ⟨_, rfl, by decide⟩
theorem witness_StackTouchedOnlyByCallAndRet : (∃ t, exec (.call 0x300#12) { regs [] with sp := 15 } = .next t
      ∧ t.sp ≠ 15 ∧ t.stack ≠ (regs []).stack) ∧ ∃ t, exec .ret { regs [] with sp := 1 } = .next t ∧ t.sp ≠ 1 :=
  ⟨⟨_, rfl, by decide, by decide⟩, ⟨_, rfl, by decide⟩⟩
theorem witness_IndexRegisterWrittenOnlyByThree : ∃ t, exec (.addI 2#4) (regs [(2, 1)] 0xFFFF) = .next t
    ∧ t.i ≠ (regs [(2, 1)] 0xFFFF).i := ⟨_, rfl, by decide⟩
/-- RetPopsAndAdvances: an empty stack, one entry, a full stack. -/
theorem witness_RetPopsAndAdvances : (regs []).sp.val = 0 ∧ ({ regs [] with sp := 1 } : State).sp.val = 0 + 1
    ∧ ({ regs [] with sp := 16 } : State).sp.val = 15 + 1 := by decide
/-- CallPushesItsOwnAddress: a full stack, and the last free entry. -/
theorem witness_CallPushesItsOwnAddress : ({ regs [] with sp := 16 } : State).sp.val = 16
    ∧ ({ regs [] with sp := 15 } : State).sp.val < 16 := by decide
theorem witness_CallThenRetReturns : ∃ t : State, (15 : Fin 17).val < 16
    ∧ exec (.call 0x300#12) { regs [] with sp := 15 } = .next t ∧ (t.setV 1#4 7#8).stack = t.stack ∧ (t.setV 1#4 7#8).sp = t.sp :=
  ⟨_, by decide, rfl, rfl, rfl⟩
theorem witness_SkipsOnByte : (regs [(3, 0x42)]).getV 3#4 = 0x42#8 ∧ (regs [(3, 0x41)]).getV 3#4 ≠ 0x42#8 := by decide
theorem witness_SkipsOnRegisters : (regs [(1, 7), (2, 7)]).getV 1#4 = (regs [(1, 7), (2, 7)]).getV 2#4
    ∧ (regs [(1, 7), (2, 8)]).getV 1#4 ≠ (regs [(1, 7), (2, 8)]).getV 2#4 := by decide
/-- The flag of SubSetsNotBorrow and SubnSetsNotBorrow exists for any operands; here equal ones and a borrow. -/
theorem witness_SubSetsNotBorrow :
    1#8 = (if ((regs [(1, 7), (2, 7)]).getV 2#4).toNat ≤ ((regs [(1, 7), (2, 7)]).getV 1#4).toNat then 1#8 else 0#8)
    ∧ 0#8 = (if ((regs [(1, 1), (2, 2)]).getV 2#4).toNat ≤ ((regs [(1, 1), (2, 2)]).getV 1#4).toNat then 1#8 else 0#8)
    ∧ (regs []).params.vfOrder = .flagLast ∧ (seqOrder (regs [])).params.vfOrder = .sequential := by decide
theorem witness_SubnSetsNotBorrow :
    1#8 = (if ((regs [(1, 3), (0xF, 5)]).getV 1#4).toNat ≤ ((regs [(1, 3), (0xF, 5)]).getV vf).toNat then 1#8 else 0#8)
    ∧ (0x1#4 ≠ vf) ∧ (regs []).params.vfOrder = .flagLast ∧ (seqOrder (regs [])).params.vfOrder = .sequential := by decide
theorem witness_ShrSetsBitShiftedOut : (1#8).toNat = ((regs [(1, 0x81)]).getV 1#4).toNat % 2
    ∧ (0#8).toNat = ((regs [(0xF, 0x80)]).getV vf).toNat % 2
    ∧ (regs []).params.vfOrder = .flagLast ∧ (seqOrder (regs [])).params.vfOrder = .sequential := by decide
theorem witness_ShlSetsBitShiftedOut : (1#8).toNat = ((regs [(1, 0x81)]).getV 1#4).toNat / 128
    ∧ (0#8).toNat = ((regs [(0xF, 0x7F)]).getV vf).toNat / 128
    ∧ (regs []).params.vfOrder = .flagLast ∧ (seqOrder (regs [])).params.vfOrder = .sequential := by decide
theorem witness_VfOrdersAgreeWithoutVf : 0xE#4 ≠ vf ∧ 0x0#4 ≠ vf := by decide
theorem witness_RndMasksAFreeByte : (0x0F#8).getLsbD 4 = false ∧ 0xE#4 ≠ 0x3#4 := by decide
/-- BcdStoresThreeDigits, StoreRegsCopiesRegisters, LoadRegsCopiesMemory: the last address that fits and the first that does
not, and a register on each side of x. -/
theorem witness_MemoryInstructions : MemoryCanonical (regs [(0, 0xFE)] 0xFFD) ∧ MemoryCanonical (regs [] 0xFFE)
    ∧ (regs [] 0xFFD).i.toNat + 2 < 4096 ∧ 4096 ≤ (regs [] 0xFFE).i.toNat + 2
    ∧ (regs [] 0xFF0).i.toNat + (0xF#4).toNat < 4096 ∧ 4096 ≤ (regs [] 0xFF1).i.toNat + (0xF#4).toNat
    ∧ (0x2#4).toNat ≤ (0x2#4).toNat ∧ (0x2#4).toNat < (0x3#4).toNat :=
  ⟨rfl, rfl, by decide, by decide, by decide, by decide, by decide, by decide⟩
/-- StoredBytesAreFetchedNext: V0 and V1 are stored at 0x202 and fetched from there. -/
theorem witness_StoredBytesAreFetchedNext : ∃ t : State, MemoryCanonical (regs [(0, 0x61), (1, 0x77)] 0x202)
    ∧ (regs [(0, 0x61), (1, 0x77)] 0x202).i.toNat + (1#4).toNat < 4096
    ∧ exec (.storeRegs 1#4) (regs [(0, 0x61), (1, 0x77)] 0x202) = .next t ∧ (0#4).toNat < (1#4).toNat
    ∧ (regs [(0, 0x61), (1, 0x77)] 0x202).i.toNat + (0#4).toNat = t.pc.toNat :=
  ⟨_, rfl, by decide, rfl, by decide, by decide⟩
/-- DrwXorsTheSprite: the last address that fits, the first that does not, no row, and a covered pixel of each value. -/
theorem witness_DrwXorsTheSprite : (1#4 ≠ 0#4 ∧ (regs [] 0xFFF).i.toNat + (1#4).toNat - 1 < 4096)
    ∧ (2#4 ≠ 0#4 ∧ 4096 ≤ (regs [] 0xFFF).i.toNat + (2#4).toNat - 1)
    ∧ SpriteCovers (poke 0x300 0x80 (pixel 0 0 (regs [] 0x300))) 0#4 1#4 1#4 0 0
    ∧ Display.get (poke 0x300 0x80 (pixel 0 0 (regs [] 0x300))).disp 0 0 = true
    ∧ SpriteCovers (poke 0x300 0x80 (regs [] 0x300)) 0#4 1#4 1#4 0 0
    ∧ ∀ r c, SpriteCovers (poke 0x300 0x80 (regs [] 0x300)) 0#4 1#4 1#4 r c →
        Display.get (poke 0x300 0x80 (regs [] 0x300)).disp r c = false :=
  ⟨by decide, by decide, ⟨0, 0, by decide⟩, by decide, ⟨0, 0, by decide⟩, fun r c _ => Display.get_clear r c⟩
/-- DrwTwiceRestores: with VF as the horizontal register, and another register that holds the same value for the second draw;
onto a clear display, with a set bit. -/
theorem witness_DrwTwiceRestores : ∃ t : State,
    faultCondition (.drw 0xF#4 1#4 1#4) (poke 0x300 0x80 (regs [(0xF, 5), (3, 5)] 0x300)) = none
    ∧ exec (.drw 0xF#4 1#4 1#4) (poke 0x300 0x80 (regs [(0xF, 5), (3, 5)] 0x300)) = .next t
    ∧ t.getV 3#4 = (poke 0x300 0x80 (regs [(0xF, 5), (3, 5)] 0x300)).getV 0xF#4
    ∧ t.getV 1#4 = (poke 0x300 0x80 (regs [(0xF, 5), (3, 5)] 0x300)).getV 1#4
    ∧ (∀ r c, SpriteCovers (poke 0x300 0x80 (regs [(0xF, 5), (3, 5)] 0x300)) 0xF#4 1#4 1#4 r c →
        Display.get (poke 0x300 0x80 (regs [(0xF, 5), (3, 5)] 0x300)).disp r c = false)
    ∧ SpriteCovers (poke 0x300 0x80 (regs [(0xF, 5), (3, 5)] 0x300)) 0xF#4 1#4 1#4 0 5 :=
  ⟨_, by decide, rfl, by decide, by decide, fun r c _ => Display.get_clear r c, ⟨0, 0, by decide⟩⟩
/-- KeySkips: key indices 15 and 16, pressed or not, both values of the parameter. -/
theorem witness_KeySkips : ((regs [(5, 15)]).getV 5#4).toNat = (15 : Fin 16).val
    ∧ (pressed 15 (regs [(5, 15)])).key[15] = true ∧ (regs [(5, 15)]).key[15] = false
    ∧ 15 < ((regs [(5, 16)]).getV 5#4).toNat ∧ (regs []).params.keyIndexOor = .fault
    ∧ ({ regs [(5, 16)] with params := otherParams } : State).params.keyIndexOor = .noSkipNoop := by decide
/-- WaitForKeyTakesTheLowest: no key; the lowest of two; key 0. -/
theorem witness_WaitForKeyTakesTheLowest : (∀ k : Fin 16, (regs []).key[k.val] = false)
    ∧ (pressed 3 (pressed 9 (regs []))).key[(3 : Fin 16).val] = true
    ∧ (∀ j : Fin 16, j < 3 → (pressed 3 (pressed 9 (regs []))).key[j.val] = false)
    ∧ (pressed 0 (regs [])).key[(0 : Fin 16).val] = true := by decide
theorem witness_TickCountsDown : ∃ s : State, s.fault = none ∧ s.pending = .tick :: [.cycle] ∧ s.dt = 0#8 ∧ s.st = 0xFF#8 :=
  ⟨{ regs [] with st := 0xFF#8, pending := [.tick, .cycle] }, rfl, rfl, rfl, rfl⟩
/-- SetKeyWritesOneFlag: indices -1, 16, 0 and 15. -/
theorem witness_SetKeyWritesOneFlag : (∀ index : Int, ∃ s : State, s.pending = .setKey index true :: [])
    ∧ ((-1 : Int) < 0 ∨ 15 < (-1 : Int)) ∧ ((16 : Int) < 0 ∨ 15 < (16 : Int)) ∧ (0 : Int) = (0 : Fin 16).val
    ∧ (15 : Int) = (15 : Fin 16).val ∧ ∃ t, hostOp (.setKey 15 true) (regs []) = .next t ∧ t.key ≠ (regs []).key :=
  ⟨fun index => ⟨{ regs [] with pending := [.setKey index true] }, rfl⟩, by decide, by decide, by decide, by decide, ⟨_, rfl, by decide⟩⟩
/-- LoadProgramCopiesOrRejects: 3584 and 3585 bytes. -/
theorem witness_LoadProgramCopiesOrRejects : ∀ n ∈ [0, 3584, 3585], ∃ s : State, MemoryCanonical s
    ∧ s.pending = .loadProgram (List.replicate n 0#8) :: [] ∧ (List.replicate n 0#8).length = n :=
  fun n _ => ⟨{ regs [] with pending := [.loadProgram (List.replicate n 0#8)] }, rfl, rfl, List.length_replicate⟩
/-- ResetGivesTheResetValues: from a halted state. -/
theorem witness_ResetGivesTheResetValues : ∃ s : State, s.pending = .reset :: [] ∧ s.fault = some .stackOverflow :=
  ⟨{ regs [] with fault := some .stackOverflow, pending := [.reset] }, rfl, rfl⟩
/-- BootLoadsFontAndProgram: the longest ROM, with a font image and without. -/
theorem witness_BootLoadsFontAndProgram : ∀ image ∈ [none, some (Vector.replicate 80 0xF0#8)], ∃ s : State,
    (List.replicate 3584 0x12#8).length ≤ 3584 ∧ s.pending = bootOps (List.replicate 3584 0x12#8) ++ [] ∧ s.params.fontImage = image :=
  fun image _ => ⟨{ regs [] with
    pending := bootOps (List.replicate 3584 0x12#8) ++ [], params := { defaultParams with fontImage := image } },
    Nat.le_of_eq List.length_replicate, rfl, rfl⟩
/-- FinishedRunStaysFinished: a jump to itself at 0x200. -/
theorem witness_FinishedRunStaysFinished : Finished (poke 0x200 0x12 (regs [])) :=
  ⟨rfl, by decide, 0x200#12, by decide, by decide⟩
theorem witness_HostReadsChangeNothing : ∃ s : State, s.pending = .read .display :: [] ∧ s.fault = some .stackOverflow :=
  ⟨{ regs [] with fault := some .stackOverflow, pending := [.read .display] }, rfl, rfl⟩
/-- StepKeepsMemoryCanonical and StepKeepsPcBounded: a store, and a jump as far as it goes. -/
theorem witness_StepKeepsMemoryCanonical : ∃ s t : State, MemoryCanonical s ∧ step s = .next t
    ∧ Memory.read t.mem 0x300 ≠ Memory.read s.mem 0x300 :=
  ⟨poke 0x200 0xF0 (poke 0x201 0x55 (regs [(0, 9)] 0x300)), _, rfl, rfl, by decide⟩
theorem witness_StepKeepsPcBounded : ∃ s t : State, PcBounded s ∧ step s = .next t ∧ t.pc = 0x10FE#16 := by
  obtain ⟨t, ht, hc⟩ := next_with
    (r := step { poke 0x200 0xBF (poke 0x201 0xFF (regs [(0, 0xFF)])) with params := otherParams })
    (fun t => t.pc == 0x10FE#16) (by decide)
  refine ⟨_, t, ?_, ht, by simpa using hc⟩
  exact ⟨fun h => (nomatch h), by decide, fun k hk => absurd hk (Nat.not_lt_zero _)⟩
/-- ReachedStatesHavePcBounded: a run of two steps, a load and the first cycle of what was loaded. -/
theorem witness_ReachedStatesHavePcBounded :
    (∃ t, Host.Core.run Sys2Proof.core 2 (bootState defaultParams [.loadProgram [0x12#8, 0x34#8]] 0) = .next t ∧ t.pc = 0x234#16)
    ∧ defaultParams.bnnnMode = .unmatched := ⟨⟨_, rfl, by decide⟩, rfl⟩
/-- AdmittedScheduleRunsNCyclesPerTick: two frames of three cycles, with a key write in the first. -/
theorem witness_AdmittedScheduleRunsNCyclesPerTick :
    AdmittedSchedule (some 3) ([.setKey 4 true] ++ [.cycle, .cycle, .cycle, .tick, .read .display]
      ++ [.cycle, .cycle, .cycle, .tick, .read .display]) :=
  ⟨[[(4, true)], []], rfl⟩

end Sys2Proof.Tests
end

section
/-! SUPPORT. What an instruction does, said once for all of them: the fault of the table of R250, or the next pc of R95, the
registers of R24, and a frame (spec/10_state.md, spec/40_cycle.md R94). The statements about single kinds of state follow. -/

namespace Sys2Proof.Machine

/-! ### The frame relation, and the frame of every state operation -/

section Frames

variable {s t u : State} {a b : List Part}

theorem SamePart.trans {p : Part} (h₁ : SamePart s t p) (h₂ : SamePart t u p) : SamePart s u p := by
  cases p with
  | mem => exact fun addr => (h₂ addr).trans (h₁ addr)
  | _ => exact Eq.trans h₂ h₁

theorem Keeps.refl (a : List Part) (s : State) : Keeps a s s := by
  intro p _
  cases p <;> simp [SamePart]

theorem Keeps.trans (h₁ : Keeps a s t) (h₂ : Keeps b t u) : Keeps (a ++ b) s u := by
  intro p hp
  rw [List.mem_append, not_or] at hp
  exact (h₁ p hp.1).trans (h₂ p hp.2)

theorem Keeps.mono (h : Keeps a s t) (hab : a ⊆ b) : Keeps b s t := fun p hp => h p (mt (@hab p) hp)

theorem keeps_withV (s : State) (v : Vector Byte 16) : Keeps [.v] s { s with v := v } := by
  intro p hp
  cases p <;> simp [SamePart] at hp ⊢

theorem keeps_setV (s : State) (x : Nibble) (b : Byte) : Keeps [.v] s (s.setV x b) := keeps_withV s _

theorem keeps_fillRegs (s : State) (base count : Nat) : Keeps [.v] s (s.fillRegs base count) := by
  rw [State.fillRegs_eq]
  exact keeps_withV s _

theorem keeps_writeFlagged (s : State) (result flag : Byte → Byte → Byte) (x y : Nibble) :
    Keeps [.v] s (s.writeFlagged result flag x y) := by
  rw [State.writeFlagged_eq]
  exact keeps_withV s _

theorem keeps_setI (s : State) (w : Word) : Keeps [.i] s (s.setI w) := by
  intro p hp
  cases p <;> simp [SamePart] at hp ⊢

theorem keeps_setPc (s : State) (w : Word) : Keeps [.pc] s (s.setPc w) := by
  intro p hp
  cases p <;> simp [SamePart] at hp ⊢

theorem keeps_advance (s : State) : Keeps [.pc] s s.advance := keeps_setPc s _

theorem keeps_skipIf (s : State) (c : Bool) : Keeps [.pc] s (s.skipIf c) := keeps_setPc s _

theorem keeps_setDt (s : State) (b : Byte) : Keeps [.dt] s (s.setDt b) := by
  intro p hp
  cases p <;> simp [SamePart] at hp ⊢

theorem keeps_setSt (s : State) (b : Byte) : Keeps [.st] s (s.setSt b) := by
  intro p hp
  cases p <;> simp [SamePart] at hp ⊢

theorem keeps_setMem (s : State) (m : Memory) : Keeps [.mem] s (s.setMem m) := by
  intro p hp
  cases p <;> simp [SamePart] at hp ⊢

theorem keeps_setDisp (s : State) (d : Display) : Keeps [.disp] s (s.setDisp d) := by
  intro p hp
  cases p <;> simp [SamePart] at hp ⊢

theorem keeps_countDraw (s : State) : Keeps [.draws] s s.countDraw := by
  intro p hp
  cases p <;> simp [SamePart] at hp ⊢

theorem keeps_withStack (s : State) (stack : Vector Word 16) (sp : Fin 17) :
    Keeps [.stack, .sp] s { s with stack := stack, sp := sp } := by
  intro p hp
  cases p <;> simp [SamePart] at hp ⊢

theorem keeps_withSp (s : State) (sp : Fin 17) : Keeps [.sp] s { s with sp := sp } := by
  intro p hp
  cases p <;> simp [SamePart] at hp ⊢

theorem keeps_withKey (s : State) (key : Vector Bool 16) : Keeps [.key] s { s with key := key } := by
  intro p hp
  cases p <;> simp [SamePart] at hp ⊢

theorem keeps_withFault (s : State) (f : Option FaultKind) : Keeps [.fault] s { s with fault := f } := by
  intro p hp
  cases p <;> simp [SamePart] at hp ⊢

theorem keeps_withPending (s : State) (ops : List HostOp) : Keeps [.pending] s { s with pending := ops } := by
  intro p hp
  cases p <;> simp [SamePart] at hp ⊢

end Frames

/-! ### What an instruction writes -/

/-- The parts of the state that an instruction may write when it raises no fault. -/
def writesParts (i : Instr) : List Part :=
  match i with
  | .cls => [.disp, .pc]
  | .ret => [.sp, .pc]
  | .call _ => [.stack, .sp, .pc]
  | .jp _ | .jpV0 _ | .seByte _ _ | .sneByte _ _ | .seReg _ _ | .sneReg _ _ | .skp _ | .sknp _ | .unmatched _ => [.pc]
  | .ldByte _ _ | .addByte _ _ | .ldReg _ _ | .orReg _ _ | .andReg _ _ | .xorReg _ _ | .addReg _ _ | .sub _ _ | .shr _ _
  | .subn _ _ | .shl _ _ | .ldVxDt _ | .ldVxK _ | .loadRegs _ => [.v, .pc]
  | .rnd _ _ => [.v, .draws, .pc]
  | .drw _ _ _ => [.disp, .v, .pc]
  | .ldI _ | .addI _ | .ldF _ => [.i, .pc]
  | .ldDtVx _ => [.dt, .pc]
  | .ldStVx _ => [.st, .pc]
  | .ldB _ | .storeRegs _ => [.mem, .pc]

/-- What holds from `s` to `t` when `i` raises no fault. -/
structure Completes (i : Instr) (s t : State) : Prop where
  /-- The next pc is the one of spec/40_cycle.md R95. -/
  pc : t.pc = nextPc i s
  /-- No register outside the "Writes V" column of spec/10_state.md R24 changes. -/
  regs : ∀ z, writesV i z = false → t.getV z = s.getV z
  /-- No other part changes (spec/40_cycle.md R94). -/
  frame : Keeps (writesParts i) s t

/-- `exec i s` raises the fault of R250 and writes nothing else (R252), or raises none and completes. -/
def FaultsOrCompletes (i : Instr) (s : State) : Prop :=
  (∃ k, faultCondition i s = some k ∧ exec i s = .next { s with fault := some k })
    ∨ (faultCondition i s = none ∧ ∃ t, exec i s = .next t ∧ Completes i s t)

section Rules

variable {i : Instr} {s t : State}

theorem faultsOrCompletes_of_completes (hf : faultCondition i s = none) (he : exec i s = .next t)
    (hc : Completes i s t) : FaultsOrCompletes i s :=
  .inr ⟨hf, t, he, hc⟩

theorem faultsOrCompletes_of_raise {k : FaultKind} (hf : faultCondition i s = some k) (he : exec i s = raise k s) :
    FaultsOrCompletes i s :=
  .inl ⟨k, hf, he⟩

/-- An instruction that writes no V register. -/
theorem completes_of_same_v (hpc : t.pc = nextPc i s) (hv : t.v = s.v) (hk : Keeps (writesParts i) s t) :
    Completes i s t :=
  ⟨hpc, fun z _ => by rw [State.getV, State.getV, hv], hk⟩

/-- An instruction whose one destination is Vx. -/
theorem completes_setV {x : Nibble} (b : Byte) (hpc : nextPc i s = s.pc + 2#16) (hv : ∀ z, writesV i z = (z == x))
    (hw : writesParts i = [.v, .pc]) : Completes i s (s.setV x b).advance where
  pc := hpc.symm
  regs z hz := by
    have hzx : z ≠ x := by simpa [hv] using hz
    simp [hzx]
  frame := hw ▸ (keeps_setV s x b).trans (keeps_advance _)

/-- Only Vx and VF receive a value from a result and a flag, in either order of the two writes (R150). -/
theorem State.writeFlagged_getV_other (s : State) (result flag : Byte → Byte → Byte) (x y : Nibble) {z : Nibble}
    (hx : z ≠ x) (hf : z ≠ vf) : (s.writeFlagged result flag x y).getV z = s.getV z := by
  cases ho : s.params.vfOrder with
  | flagLast => rw [State.writeFlagged_flagLast s result flag x y z ho, if_neg hf, if_neg hx]
  | sequential => rw [State.writeFlagged_sequential s result flag x y z ho, if_neg hx, if_neg hf]

/-- An instruction that writes a result to Vx and a flag to VF. -/
theorem completes_writeFlagged (result flag : Byte → Byte → Byte) {x : Nibble} (y : Nibble)
    (hpc : nextPc i s = s.pc + 2#16) (hv : ∀ z, writesV i z = (z == x || z == vf)) (hw : writesParts i = [.v, .pc]) :
    Completes i s (s.writeFlagged result flag x y).advance where
  pc := by rw [hpc, State.writeFlagged_eq, State.advance_pc]
  regs z hz := by
    obtain ⟨hx, hf⟩ : z ≠ x ∧ z ≠ vf := by simpa [hv] using hz
    rw [State.advance_getV, State.writeFlagged_getV_other s result flag x y hx hf]
  frame := hw ▸ (keeps_writeFlagged s result flag x y).trans (keeps_advance _)

/-- A skip: the condition `c` of the model decides the condition `P` of R95. -/
theorem completes_skipIf {P : Prop} [Decidable P] {c : Bool} (hc : c = true ↔ P)
    (hpc : nextPc i s = if P then s.pc + 4#16 else s.pc + 2#16) (hw : writesParts i = [.pc]) :
    Completes i s (s.skipIf c) :=
  completes_of_same_v (by rw [hpc, State.skipIf_pc]; exact if_congr hc rfl rfl) rfl (hw ▸ keeps_skipIf s c)

/-- A block access: the address check of R56 comes first. -/
theorem faultsOrCompletes_withBlock {count : Nat} {body : State} (he : exec i s = s.withBlock count body)
    (hf : faultCondition i s = if 0 < count ∧ 4096 < s.i.toNat + count then some .dataAddressOutOfRange else none)
    (hc : Completes i s body) : FaultsOrCompletes i s := by
  rcases State.withBlock_cases s count body with ⟨h0, h4096, hb⟩ | ⟨hin, hb⟩
  · exact faultsOrCompletes_of_raise (by rw [hf, if_pos ⟨h0, h4096⟩]) (he.trans hb)
  · exact faultsOrCompletes_of_completes (by rw [hf, if_neg (by omega)]) (he.trans hb) hc

/-- A key test: a key of the 16 decides the skip, and above 15 the parameter KEY_INDEX_OOR decides (R230 to R232). -/
theorem faultsOrCompletes_keySkip {x : Nibble} {want : Bool} (he : exec i s = s.keySkip x want)
    (hf : faultCondition i s
      = if 15 < (s.getV x).toNat ∧ s.params.keyIndexOor = .fault then some .keyIndexOutOfRange else none)
    (hpc : nextPc i s = if s.key[(s.getV x).toNat]? = some want then s.pc + 4#16 else s.pc + 2#16)
    (hw : writesParts i = [.pc]) : FaultsOrCompletes i s := by
  rcases State.keySkip_cases s x want with ⟨hx, hk⟩ | ⟨hx, hp, hk⟩ | ⟨hx, hp, hk⟩
  · exact faultsOrCompletes_of_completes (by rw [hf, if_neg (by omega)]) (he.trans hk)
      (completes_skipIf (by simp [hx]) hpc hw)
  · exact faultsOrCompletes_of_raise (by rw [hf, if_pos ⟨hx, hp⟩]) (he.trans hk)
  · have hnone : ¬ s.key[(s.getV x).toNat]? = some want := by simp [Vector.getElem?_eq_none hx]
    exact faultsOrCompletes_of_completes (by rw [hf, if_neg (by simp [hp])]) (he.trans hk)
      (completes_of_same_v (by rw [hpc, if_neg hnone, State.advance_pc]) rfl (hw ▸ keeps_advance s))

end Rules

/-! ### Call, return and wait-for-key, each by its outcomes -/

/-- CALL at SP = 16 faults; below, it pushes its own address (R113). -/
theorem exec_call_cases (nnn : Addr) (s : State) :
    (s.sp.val = 16 ∧ exec (.call nnn) s = raise .stackOverflow s) ∨
      ∃ h : s.sp.val < 16, exec (.call nnn) s = .next
        (State.setPc { s with stack := s.stack.set s.sp.val s.pc h, sp := ⟨s.sp.val + 1, by omega⟩ } (addrValue nnn)) := by
  change (_ ∧ execCall nnn s = _) ∨ ∃ _, execCall nnn s = _
  unfold execCall
  rcases State.push_cases s s.pc with ⟨h, hp⟩ | ⟨h, hp⟩
  · exact .inl ⟨h, by rw [hp]⟩
  · exact .inr ⟨h, by rw [hp]⟩

/-- RET at SP = 0 faults; above, it takes entry SP - 1 and continues past it (R111). -/
theorem exec_ret_cases (s : State) :
    (s.sp.val = 0 ∧ exec .ret s = raise .stackUnderflow s) ∨
      ∃ h : 0 < s.sp.val, exec .ret s = .next
        (State.setPc { s with sp := ⟨s.sp.val - 1, by omega⟩ } (s.stack[s.sp.val - 1]'(by omega) + 2#16)) := by
  change (_ ∧ execRet s = _) ∨ ∃ _, execRet s = _
  unfold execRet
  rcases State.pop_cases s with ⟨h, hp⟩ | ⟨h, hp⟩
  · exact .inl ⟨h, by rw [hp]⟩
  · exact .inr ⟨h, by rw [hp]⟩

theorem faultsOrCompletes_call (nnn : Addr) (s : State) : FaultsOrCompletes (.call nnn) s := by
  rcases exec_call_cases nnn s with ⟨h, he⟩ | ⟨h, he⟩
  · exact faultsOrCompletes_of_raise (if_pos h) he
  · exact faultsOrCompletes_of_completes (if_neg (by omega)) he
      (completes_of_same_v rfl rfl ((keeps_withStack s _ _).trans (keeps_setPc _ _)))

theorem faultsOrCompletes_ret (s : State) : FaultsOrCompletes .ret s := by
  rcases exec_ret_cases s with ⟨h, he⟩ | ⟨h, he⟩
  · exact faultsOrCompletes_of_raise (if_pos h) he
  · have hentry : s.stack[s.sp.val - 1]? = some (s.stack[s.sp.val - 1]'(by omega)) := Vector.getElem?_eq_getElem _
    exact faultsOrCompletes_of_completes (if_neg (by omega)) he
      (completes_of_same_v (by simp [nextPc, hentry]) rfl ((keeps_withSp s _).trans (keeps_setPc _ _)))

theorem faultsOrCompletes_ldVxK (x : Nibble) (s : State) : FaultsOrCompletes (.ldVxK x) s := by
  cases hk : s.lowestKey with
  | some k =>
    obtain ⟨h16, hpressed, -⟩ := State.lowestKey_some hk
    have he : exec (.ldVxK x) s = .next (s.setV x (BitVec.ofNat 8 k)).advance := by
      change execLdVxK x s = _
      rw [execLdVxK, hk]
    exact faultsOrCompletes_of_completes rfl he
      (completes_setV _ (if_pos ⟨⟨k, h16⟩, hpressed⟩) (fun _ => rfl) rfl)
  | none =>
    have he : exec (.ldVxK x) s = .next s := by
      change execLdVxK x s = _
      rw [execLdVxK, hk]
    have hnone : ¬ ∃ k : Fin 16, s.key[k.val] = true := by
      rintro ⟨k, hpressed⟩
      simp [State.lowestKey_none hk k.val k.isLt] at hpressed
    exact faultsOrCompletes_of_completes rfl he (completes_of_same_v (if_neg hnone).symm rfl (Keeps.refl _ s))

/-! ### The memory instructions and the sprite draw, when every address is in range -/

theorem completes_loadRegs (x : Nibble) (s : State) :
    Completes (.loadRegs x) s (s.fillRegs (s.dataAddr 0) (x.toNat + 1)).advance where
  pc := by
    rw [State.fillRegs_eq]
    rfl
  regs z hz := by
    have hlt : ¬ z.toNat < x.toNat + 1 := by
      have : ¬ z.toNat ≤ x.toNat := of_decide_eq_false hz
      omega
    rw [State.advance_getV, State.fillRegs_getV s _ _ z (by have := x.isLt; omega), if_neg hlt]
  frame := (keeps_fillRegs s _ _).trans (keeps_advance _)

theorem completes_drw (x y n : Nibble) (d : Display) (flag : Byte) (s : State) :
    Completes (.drw x y n) s ((s.setDisp d).setV vf flag).advance where
  pc := rfl
  regs z hz := by
    have hzf : z ≠ vf := by simpa [writesV] using hz
    simp [hzf]
  frame := ((keeps_setDisp s d).trans (keeps_setV _ vf flag)).trans (keeps_advance _)

/-! ### Every instruction -/

/-- What an instruction can do. -/
theorem exec_cases (i : Instr) (s : State) : FaultsOrCompletes i s := by
  cases i with
  | cls =>
    exact faultsOrCompletes_of_completes rfl rfl
      (completes_of_same_v rfl rfl ((keeps_setDisp s _).trans (keeps_advance _)))
  | ret => exact faultsOrCompletes_ret s
  | jp | jpV0 => exact faultsOrCompletes_of_completes rfl rfl (completes_of_same_v rfl rfl (keeps_setPc s _))
  | call nnn => exact faultsOrCompletes_call nnn s
  | seByte | seReg => exact faultsOrCompletes_of_completes rfl rfl (completes_skipIf beq_iff_eq rfl rfl)
  | sneByte | sneReg => exact faultsOrCompletes_of_completes rfl rfl (completes_skipIf bne_iff_ne rfl rfl)
  | ldByte | addByte | ldReg | orReg | andReg | xorReg | ldVxDt =>
    exact faultsOrCompletes_of_completes rfl rfl (completes_setV _ rfl (fun _ => rfl) rfl)
  | addReg x y =>
    refine faultsOrCompletes_of_completes rfl rfl ⟨rfl, fun z hz => ?_,
      ((keeps_setV s x _).trans (keeps_setV _ vf _)).trans (keeps_advance _) |>.mono (by simp [writesParts])⟩
    obtain ⟨hx, hf⟩ : z ≠ x ∧ z ≠ vf := by simpa [writesV] using hz
    simp [hx, hf]
  | sub | shr | subn | shl =>
    exact faultsOrCompletes_of_completes rfl rfl (completes_writeFlagged _ _ _ rfl (fun _ => rfl) rfl)
  | ldI | addI | ldF =>
    exact faultsOrCompletes_of_completes rfl rfl
      (completes_of_same_v rfl rfl ((keeps_setI s _).trans (keeps_advance _)))
  | rnd x nn =>
    refine faultsOrCompletes_of_completes rfl rfl ⟨rfl, fun z hz => ?_,
      ((keeps_setV s x _).trans (keeps_countDraw _)).trans (keeps_advance _)⟩
    have hzx : z ≠ x := by simpa [writesV] using hz
    simp [hzx]
  | drw x y n =>
    refine faultsOrCompletes_withBlock rfl (if_congr ?_ rfl rfl) (completes_drw x y n _ _ s)
    omega
  | skp x => exact faultsOrCompletes_keySkip (want := true) rfl rfl rfl rfl
  | sknp x => exact faultsOrCompletes_keySkip (want := false) rfl rfl rfl rfl
  | ldVxK x => exact faultsOrCompletes_ldVxK x s
  | ldDtVx x =>
    exact faultsOrCompletes_of_completes rfl rfl
      (completes_of_same_v rfl rfl ((keeps_setDt s _).trans (keeps_advance _)))
  | ldStVx x =>
    exact faultsOrCompletes_of_completes rfl rfl
      (completes_of_same_v rfl rfl ((keeps_setSt s _).trans (keeps_advance _)))
  | ldB | storeRegs =>
    refine faultsOrCompletes_withBlock rfl (if_congr ?_ rfl rfl)
      (completes_of_same_v rfl rfl ((keeps_setMem s _).trans (keeps_advance _)))
    omega
  | loadRegs x =>
    refine faultsOrCompletes_withBlock rfl (if_congr ?_ rfl rfl) (completes_loadRegs x s)
    omega
  | unmatched op => exact faultsOrCompletes_of_completes rfl rfl (completes_of_same_v rfl rfl (keeps_advance s))

section Inversion

variable {i : Instr} {s t : State}

/-- A next state of an instruction is `s` with a fault latched, or the instruction has no fault and completes. -/
theorem faulted_or_completes_of_exec (he : exec i s = .next t) :
    (∃ k, t = { s with fault := some k }) ∨ (faultCondition i s = none ∧ Completes i s t) := by
  rcases exec_cases i s with ⟨k, -, hk⟩ | ⟨hf, u, hu, hc⟩
  · rw [he, Host.Outcome.next.injEq] at hk
    exact .inl ⟨k, hk⟩
  · rw [he, Host.Outcome.next.injEq] at hu
    exact .inr ⟨hf, hu ▸ hc⟩

/-- An instruction leaves every part but the fault latch and the parts that it writes. -/
theorem keeps_of_exec (he : exec i s = .next t) : Keeps (.fault :: writesParts i) s t := by
  rcases faulted_or_completes_of_exec he with ⟨k, rfl⟩ | ⟨-, hc⟩
  · exact (keeps_withFault s _).mono (by simp)
  · exact hc.frame.mono (List.subset_cons_self _ _)

/-- If a part has other contents after an instruction, the instruction writes it. -/
theorem mem_writesParts_of_exec (he : exec i s = .next t) {p : Part} (hf : p ≠ .fault) (hp : ¬ SamePart s t p) :
    p ∈ writesParts i := by
  by_contra hw
  exact hp (keeps_of_exec he p (by simp [hf, hw]))

theorem getV_of_exec (he : exec i s = .next t) {z : Nibble} (hz : writesV i z = false) : t.getV z = s.getV z := by
  rcases faulted_or_completes_of_exec he with ⟨k, rfl⟩ | ⟨-, hc⟩
  · rfl
  · exact hc.regs z hz

end Inversion

/-! ### Who writes a part -/

section Writers

variable {i : Instr}

theorem disp_mem_writesParts (h : .disp ∈ writesParts i) : i = .cls ∨ ∃ x y n, i = .drw x y n := by
  cases i <;> simp [writesParts] at h ⊢

theorem draws_mem_writesParts (h : .draws ∈ writesParts i) : ∃ x nn, i = .rnd x nn := by
  cases i <;> simp [writesParts] at h ⊢

theorem sp_mem_writesParts (h : .sp ∈ writesParts i) : i = .ret ∨ ∃ nnn, i = .call nnn := by
  cases i <;> simp [writesParts] at h ⊢

theorem stack_mem_writesParts (h : .stack ∈ writesParts i) : ∃ nnn, i = .call nnn := by
  cases i <;> simp [writesParts] at h ⊢

theorem i_mem_writesParts (h : .i ∈ writesParts i) : (∃ nnn, i = .ldI nnn) ∨ (∃ x, i = .addI x) ∨ ∃ x, i = .ldF x := by
  cases i <;> simp [writesParts] at h ⊢

/-- No instruction writes the key latch, the parameters or the host's schedule. -/
theorem not_mem_writesParts {p : Part} (hp : p = .key ∨ p = .params ∨ p = .pending) (i : Instr) : p ∉ writesParts i := by
  rcases hp with rfl | rfl | rfl <;> cases i <;> simp [writesParts]

theorem params_of_exec {s t : State} (he : exec i s = .next t) : t.params = s.params :=
  keeps_of_exec he .params (by simp [not_mem_writesParts])

/-- A flag or destination register is the only way that VF stands in the "Writes V" column (R23, R24). -/
theorem writesV_vf_eq_false (hflag : isFlagWriter i = false) (hdest : destinationIsVf i = false) :
    writesV i vf = false := by
  cases i with
  | loadRegs x =>
    have hx : x ≠ vf := by simpa [destinationIsVf] using hdest
    simp only [writesV, decide_eq_false_iff_not]
    bv_omega
  | ldByte x | addByte x | ldReg x | orReg x | andReg x | xorReg x | rnd x | ldVxDt x | ldVxK x =>
    have hx : x ≠ vf := by simpa [destinationIsVf] using hdest
    simpa [writesV] using hx.symm
  | addReg | sub | shr | subn | shl | drw => cases hflag
  | _ => rfl

end Writers

/-! ### The statements about single kinds of state -/

/-- Settles O15: the registers of every instruction's rule. -/
theorem registersWrittenFollowTheTable : Obligations.RegistersWrittenFollowTheTable :=
  fun _ _ _ _ he hz => getV_of_exec he hz

/-- Settles O16: O15 at VF, which the "Writes V" column lists for a flag writer or a destination only. -/
theorem vfWrittenOnlyAsFlagOrDestination : Obligations.VfWrittenOnlyAsFlagOrDestination :=
  fun _ _ _ he hflag hdest => getV_of_exec he (writesV_vf_eq_false hflag hdest)

/-- Settles O18. -/
theorem displayWrittenOnlyByClsAndDrw : Obligations.DisplayWrittenOnlyByClsAndDrw :=
  fun _ _ _ he hd => disp_mem_writesParts (mem_writesParts_of_exec he (by decide) hd)

/-- Settles O20. -/
theorem keyLatchNeverWrittenByInstructions : Obligations.KeyLatchNeverWrittenByInstructions := by
  intro i s t he
  have kept {p : Part} (hp : p = .key ∨ p = .params ∨ p = .pending) (hf : p ≠ .fault) : SamePart s t p :=
    keeps_of_exec he p (by simp [hf, not_mem_writesParts hp])
  exact ⟨kept (.inl rfl) (by decide), kept (.inr (.inl rfl)) (by decide), kept (.inr (.inr rfl)) (by decide),
    fun hd => draws_mem_writesParts (mem_writesParts_of_exec he (by decide) hd)⟩

/-- Settles O21. -/
theorem stackTouchedOnlyByCallAndRet : Obligations.StackTouchedOnlyByCallAndRet :=
  fun _ _ t he => ⟨fun hsp => sp_mem_writesParts (mem_writesParts_of_exec he (by decide) hsp),
    fun hstack => stack_mem_writesParts (mem_writesParts_of_exec he (by decide) hstack), Nat.le_of_lt_succ t.sp.isLt⟩

/-- Settles O22. -/
theorem indexRegisterWrittenOnlyByThree : Obligations.IndexRegisterWrittenOnlyByThree :=
  fun _ _ _ he hi => i_mem_writesParts (mem_writesParts_of_exec he (by decide) hi)

end Sys2Proof.Machine
end

section
/-! SUPPORT. The bounds on pc (spec/10_state.md R27): every instruction, every step and every run from reset keep them. -/

namespace Sys2Proof.Machine

section Step

variable {s t : State}

/-! ### What a step can do -/

/-- An operation of the host other than a cycle and a reset writes memory, the key latch and the timers at most. -/
theorem keeps_of_hostOp {op : HostOp} (hcycle : op ≠ .cycle) (hreset : op ≠ .reset) (h : hostOp op s = .next t) :
    Keeps [.mem, .key, .dt, .st] s t := by
  cases op with
  | reset => exact absurd rfl hreset
  | cycle => exact absurd rfl hcycle
  | writeFont =>
    rcases bootFont_cases s with ⟨-, hb⟩ | ⟨-, hb⟩ <;> cases hb.symm.trans h
    rw [writeFont_eq]
    exact (keeps_setMem s _).mono (by simp)
  | loadProgram bytes =>
    cases h
    by_cases hl : bytes.length ≤ 3584
    · rw [loadProgram_fits hl]
      exact (keeps_setMem s _).mono (by simp)
    · rw [loadProgram_rejects (by omega)]
      exact Keeps.refl _ s
  | setKey index pressed =>
    cases h
    by_cases hi : 0 ≤ index ∧ index < 16
    · rw [setKey_inside index pressed s hi]
      exact (keeps_withKey s _).mono (by simp)
    · rw [setKey_outside index pressed s (by omega)]
      exact Keeps.refl _ s
  | tick =>
    rcases tick_cases s with ⟨k, -, ht⟩ | ⟨-, ht⟩ <;> cases ht.symm.trans h
    exact Keeps.mono (a := [.dt, .st]) ((keeps_setDt s (tickDown s.dt)).trans (keeps_setSt _ (tickDown s.st))) (by simp)
  | read port =>
    cases h
    exact Keeps.refl _ s

/-- A step takes its operation off the schedule, and then is a cycle, a reset, or an operation that writes memory, the key
latch and the timers at most. -/
theorem step_cases (h : step s = .next t) :
    ∃ u, Keeps [.pending] s u ∧ (cycle u = .next t ∨ t = resetBlock u ∨ Keeps [.mem, .key, .dt, .st] u t) := by
  unfold step nextStep at h
  split at h
  · exact ⟨s, Keeps.refl _ s, .inl h⟩
  next op rest _ =>
    refine ⟨_, keeps_withPending s rest, ?_⟩
    by_cases hcycle : op = .cycle
    · subst hcycle
      exact .inl h
    · by_cases hreset : op = .reset
      · subst hreset
        cases h
        exact .inr (.inl rfl)
      · exact .inr (.inr (keeps_of_hostOp hcycle hreset h))

/-- A cycle that takes a next state latches the fetch fault of R91 or executes a fetched word. -/
theorem cycle_eq_next (h : cycle s = .next t) :
    (∃ k, t = { s with fault := some k }) ∨ (s.pc.toNat < 0xFFF ∧ exec (decode s.params s.fetchWord) s = .next t) := by
  rcases cycle_cases s with ⟨k, -, hc⟩ | ⟨-, -, hc⟩ | ⟨-, hpc, hc⟩
  · cases hc.symm.trans h
  · cases hc.symm.trans h
    exact .inl ⟨_, rfl⟩
  · exact .inr ⟨hpc, hc.symm.trans h⟩

/-- No step changes the parameters. -/
theorem params_of_step (h : step s = .next t) : t.params = s.params := by
  obtain ⟨u, hu, hcases⟩ := step_cases h
  have hsu : u.params = s.params := hu .params (by decide)
  rw [← hsu]
  rcases hcases with hc | rfl | hk
  · rcases cycle_eq_next hc with ⟨k, rfl⟩ | ⟨-, he⟩
    · rfl
    · exact params_of_exec he
  · rfl
  · exact hk .params (by decide)

/-! ### An instruction keeps the bounds -/

/-- JP V0 is decoded only under BNNN_MODE = JUMP_V0 (R124). -/
theorem bnnnMode_of_decode_jpV0 {p : Params} {op : Word} {nnn : Addr} (h : decode p op = .jpV0 nnn) :
    p.bnnnMode = .jumpV0 := by
  unfold decode at h
  split at h <;> simp [decode0, decode5, decode8, decode9, decodeB, decodeE, decodeF, ite_eq_iff] at h
  exact h.1

/-- Every return address below SP is at most 0xFFE: a fetched CALL pushed it. -/
def EntriesBounded (s : State) : Prop := ∀ k : Fin 16, k.val < s.sp.val → (s.stack[k.val]).toNat ≤ 0xFFE

/-- An immediate address is at most 0xFFF, an advance or a skip adds at most 4, and a return continues 2 past an entry. -/
theorem nextPc_le {i : Instr} (hs : EntriesBounded s) (hfetch : s.pc.toNat < 0xFFF) (hf : faultCondition i s = none)
    (hj : ∀ nnn, i ≠ .jpV0 nnn) : (nextPc i s).toNat ≤ 0x1002 := by
  have hadv : (s.pc + 2#16).toNat ≤ 0x1002 := by bv_omega
  have hskip : (s.pc + 4#16).toNat ≤ 0x1002 := by bv_omega
  cases i with
  | jp nnn | call nnn =>
    simp only [nextPc]
    bv_omega
  | jpV0 nnn => exact absurd rfl (hj nnn)
  | ret =>
    have hsp : 0 < s.sp.val := by
      by_contra h0
      simp [faultCondition, Nat.eq_zero_of_not_pos h0] at hf
    have hlast : s.sp.val - 1 < 16 := by omega
    have hentry := hs ⟨s.sp.val - 1, hlast⟩ (Nat.sub_lt hsp Nat.one_pos)
    simp only [nextPc, Vector.getElem?_eq_getElem hlast, Option.getD_some]
    bv_omega
  | seByte | sneByte | seReg | sneReg | skp | sknp =>
    simp only [nextPc]
    split
    · exact hskip
    · exact hadv
  | ldVxK =>
    simp only [nextPc]
    split
    · exact hadv
    · omega
  | _ => exact hadv

/-- nnn + V0 is at most 0xFFF + 0xFF (R124). -/
theorem nextPc_jpV0_le (nnn : Addr) (s : State) : (nextPc (.jpV0 nnn) s).toNat ≤ 0x10FE := by
  simp only [nextPc]
  bv_omega

theorem EntriesBounded.of_keeps {a : List Part} (hs : EntriesBounded s) (hk : Keeps a s t) (hstack : .stack ∉ a)
    (hsp : .sp ∉ a) : EntriesBounded t := by
  have estack : t.stack = s.stack := hk _ hstack
  have esp : t.sp = s.sp := hk _ hsp
  unfold EntriesBounded
  rw [estack, esp]
  exact hs

/-- A fetched instruction keeps the bound on the entries: CALL pushes the pc that it was fetched from, and RET only takes
entries away. -/
theorem EntriesBounded.of_exec {i : Instr} (hs : EntriesBounded s) (hfetch : s.pc.toNat < 0xFFF)
    (he : exec i s = .next t) : EntriesBounded t := by
  cases i with
  | call nnn =>
    rcases exec_call_cases nnn s with ⟨-, hc⟩ | ⟨hsp, hc⟩ <;> cases hc.symm.trans he
    · exact hs
    · intro k hk
      simp only [State.setPc_stack, State.setPc_sp, Vector.getElem_set] at hk ⊢
      split
      · omega
      · exact hs k (by omega)
  | ret =>
    rcases exec_ret_cases s with ⟨-, hc⟩ | ⟨hsp, hc⟩ <;> cases hc.symm.trans he
    · exact hs
    · exact fun k hk => hs k (Nat.lt_of_lt_of_le hk (Nat.sub_le _ _))
  | _ => exact hs.of_keeps (keeps_of_exec he) (by simp [writesParts]) (by simp [writesParts])

/-- A fetched instruction keeps the bounds. -/
theorem PcBounded.of_exec_decode {op : Word} (h : PcBounded s) (hfetch : s.pc.toNat < 0xFFF)
    (he : exec (decode s.params op) s = .next t) : PcBounded t := by
  obtain ⟨hmode, hpc, hentries⟩ := h
  have hparams : t.params = s.params := params_of_exec he
  refine and_assoc.1 ⟨?_, EntriesBounded.of_exec hentries hfetch he⟩
  rw [hparams]
  rcases faulted_or_completes_of_exec he with ⟨k, rfl⟩ | ⟨hf, hc⟩
  · exact ⟨hmode, hpc⟩
  · rw [hc.pc]
    by_cases hj : ∃ nnn, decode s.params op = .jpV0 nnn
    · obtain ⟨nnn, hj⟩ := hj
      have hjump := bnnnMode_of_decode_jpV0 hj
      exact ⟨fun hu => by simp [hjump] at hu, hj ▸ nextPc_jpV0_le nnn s⟩
    · have hle := nextPc_le hentries hfetch hf (not_exists.1 hj)
      exact ⟨fun _ => hle, by omega⟩

/-! ### A step keeps the bounds -/

/-- The bounds speak of the parameters, pc, the stack and SP only. -/
theorem PcBounded.of_keeps {a : List Part} (h : PcBounded s) (hk : Keeps a s t)
    (ha : .params ∉ a ∧ .pc ∉ a ∧ .stack ∉ a ∧ .sp ∉ a) : PcBounded t := by
  obtain ⟨hmode, hpc, hentries⟩ := h
  obtain ⟨haparams, hapc, hastack, hasp⟩ := ha
  have eparams : t.params = s.params := hk _ haparams
  have epc : t.pc = s.pc := hk _ hapc
  exact ⟨by rwa [eparams, epc], by rwa [epc], EntriesBounded.of_keeps hentries hk hastack hasp⟩

/-- pc is 0x200 and no entry is in use, whatever the model's own fields. -/
theorem pcBounded_bootState (p : Params) (ops : List HostOp) (d : Nat) : PcBounded (bootState p ops d) :=
  ⟨fun _ => (by decide : 0x200 ≤ 0x1002), (by decide : 0x200 ≤ 0x10FE), fun _ hk => absurd hk (Nat.not_lt_zero _)⟩

end Step

/-- Settles O57: the next state is a reset state, or agrees with one that meets the bounds but for other parts, or comes from a
fetched instruction. -/
theorem stepKeepsPcBounded : Obligations.StepKeepsPcBounded := by
  intro s t h hstep
  obtain ⟨u, hsu, hcases⟩ := step_cases hstep
  have hu : PcBounded u := h.of_keeps hsu (by decide)
  rcases hcases with hc | rfl | hk
  · rcases cycle_eq_next hc with ⟨k, rfl⟩ | ⟨hfetch, he⟩
    · exact hu.of_keeps (keeps_withFault u _) (by decide)
    · exact hu.of_exec_decode hfetch he
  · exact pcBounded_bootState u.params u.pending u.draws
  · exact hu.of_keeps hk (by decide)

/-- Settles O58. -/
theorem bootStateMeetsTheInvariants : Obligations.BootStateMeetsTheInvariants :=
  fun p ops d => ⟨Memory.wf_reset, pcBounded_bootState p ops d, rfl⟩

/-! ### Runs -/

/-- A run of n + 1 steps that ends in a state is a step and a run of n. -/
theorem run_succ_eq_next {n : Nat} {s t : State} (h : Host.Core.run Sys2Proof.core (n + 1) s = .next t) :
    ∃ u, step s = .next u ∧ Host.Core.run Sys2Proof.core n u = .next t := by
  cases hu : step s with
  | next u => exact ⟨u, rfl, by simpa only [Host.Core.run, Host.Check.core_step, hu] using h⟩
  | fault => simp [Host.Core.run, Host.Check.core_step, hu] at h
  | refused => simp [Host.Core.run, Host.Check.core_step, hu] at h

/-- A predicate that every step keeps holds at the end of every run from a state that meets it. -/
theorem run_keeps {P : State → Prop} (hstep : ∀ s t, P s → step s = .next t → P t) {n : Nat} {s t : State} (hs : P s)
    (hrun : Host.Core.run Sys2Proof.core n s = .next t) : P t := by
  induction n generalizing s with
  | zero =>
    cases hrun
    exact hs
  | succ n ih =>
    obtain ⟨u, hu, hrest⟩ := run_succ_eq_next hrun
    exact ih (hstep s u hs hu) hrest

/-- Settles O59, by O57 and O58 along the run. -/
theorem reachedStatesHavePcBounded : Obligations.ReachedStatesHavePcBounded := by
  intro p ops d n t hrun
  obtain ⟨⟨hmode, hpc, -⟩, hparams⟩ := run_keeps (P := fun s => PcBounded s ∧ s.params = p)
    (fun s t ⟨hbounded, hparams⟩ hst => ⟨stepKeepsPcBounded s t hbounded hst, (params_of_step hst).trans hparams⟩)
    ⟨pcBounded_bootState p ops d, rfl⟩ hrun
  exact ⟨hparams ▸ hmode, hpc, hparams⟩

end Sys2Proof.Machine
end

section
/-! SUPPORT. The writers of memory (spec/20_memory.md R53, R55, R65): which bytes each stores, that no other operation writes
one, and that all keep the canonical form. -/

namespace Sys2Proof.Machine

section Writers

variable {i : Instr} {s t : State}

/-! ### A block access -/

/-- A block access faults, or lies within the address space and ends in its body. -/
theorem withBlock_eq_next {count : Nat} {body : State} (h : s.withBlock count body = .next t) :
    (∃ k, t = { s with fault := some k }) ∨ ((count = 0 ∨ s.i.toNat + count ≤ 4096) ∧ t = body) := by
  rcases State.withBlock_cases s count body with ⟨-, -, hb⟩ | ⟨hin, hb⟩ <;> cases hb.symm.trans h
  · exact .inl ⟨_, rfl⟩
  · exact .inr ⟨hin, rfl⟩

/-! ### The instructions that store -/

/-- The bytes that an instruction stores at I, I + 1, …: the "Writes" column of spec/20_memory.md R53. -/
def storedBytes (i : Instr) (s : State) : List Byte :=
  match i with
  | .ldB x => bcdDigits (s.getV x)
  | .storeRegs x => s.regsUpTo x
  | _ => []

/-- An instruction stores to the addresses of its block. -/
theorem storesTo_iff {a : Nat} :
    storesTo i s a = true ↔ s.dataAddr 0 ≤ a ∧ a < s.dataAddr 0 + (storedBytes i s).length := by
  cases i with
  | ldB | storeRegs =>
    simp only [storesTo, Bool.and_eq_true, decide_eq_true_eq]
    simp only [storedBytes, bcdDigits, State.dataAddr, State.regsUpTo_length, List.length_cons, List.length_nil]
    omega
  | _ => simp [storesTo, storedBytes]

/-- Fx33 and Fx55 check the address of every byte that they store, then store them at I (R56, R187, R189). -/
theorem exec_store (h : .mem ∈ writesParts i) (s : State) :
    exec i s = s.withBlock (storedBytes i s).length
      (s.setMem (Memory.writeBlock s.mem (s.dataAddr 0) (storedBytes i s))).advance := by
  cases i with
  | ldB x => rfl
  | storeRegs x =>
    rw [show (storedBytes (.storeRegs x) s).length = x.toNat + 1 from s.regsUpTo_length x]
    rfl
  | _ => simp [writesParts] at h

/-- A block of bytes that lies within the address space is stored. -/
theorem exec_store_inside (hw : .mem ∈ writesParts i) (hin : s.i.toNat + (storedBytes i s).length ≤ 4096) :
    exec i s = .next (s.setMem (Memory.writeBlock s.mem (s.dataAddr 0) (storedBytes i s))).advance := by
  rw [exec_store hw]
  rcases State.withBlock_cases s (storedBytes i s).length _ with ⟨-, hout, -⟩ | ⟨-, hb⟩
  · omega
  · exact hb

/-- After a store the k-th byte of the block stands at I + k. -/
theorem read_of_exec_store (hw : .mem ∈ writesParts i) (h : MemoryCanonical s)
    (hin : s.i.toNat + (storedBytes i s).length ≤ 4096) (he : exec i s = .next t) {k : Nat}
    (hk : k < (storedBytes i s).length) : Memory.read t.mem (s.dataAddr k) = (storedBytes i s)[k] := by
  cases (exec_store_inside hw hin).symm.trans he
  exact Memory.read_writeBlock_inside h hin hk

/-! ### The instructions that store nothing -/

@[simp] theorem State.writeFlagged_mem (s : State) (result flag : Byte → Byte → Byte) (x y : Nibble) :
    (s.writeFlagged result flag x y).mem = s.mem := by
  rw [State.writeFlagged_eq]

@[simp] theorem State.fillRegs_mem (s : State) (base count : Nat) : (s.fillRegs base count).mem = s.mem := by
  rw [State.fillRegs_eq]

/-- A block access whose body keeps memory keeps it. -/
theorem mem_of_withBlock {count : Nat} {body : State} (h : s.withBlock count body = .next t) (hbody : body.mem = s.mem) :
    t.mem = s.mem := by
  rcases withBlock_eq_next h with ⟨k, rfl⟩ | ⟨-, rfl⟩
  · rfl
  · exact hbody

theorem mem_of_keySkip {x : Nibble} {want : Bool} (h : s.keySkip x want = .next t) : t.mem = s.mem := by
  rcases State.keySkip_cases s x want with ⟨_, hk⟩ | ⟨-, -, hk⟩ | ⟨-, -, hk⟩ <;> cases hk.symm.trans h <;> rfl

/-- An instruction other than the two stores leaves the list of bytes itself, not only what it reads as. -/
theorem mem_of_exec_of_not_store (hw : .mem ∉ writesParts i) (he : exec i s = .next t) : t.mem = s.mem := by
  cases i with
  | ldB | storeRegs => simp [writesParts] at hw
  | call nnn => rcases exec_call_cases nnn s with ⟨-, hc⟩ | ⟨_, hc⟩ <;> cases hc.symm.trans he <;> rfl
  | ret => rcases exec_ret_cases s with ⟨-, hc⟩ | ⟨_, hc⟩ <;> cases hc.symm.trans he <;> rfl
  | sub | shr | subn | shl =>
    cases he
    simp
  | drw => exact mem_of_withBlock he rfl
  | loadRegs => exact mem_of_withBlock he (by simp)
  | skp | sknp => exact mem_of_keySkip he
  | ldVxK x =>
    change execLdVxK x s = _ at he
    unfold execLdVxK at he
    split at he <;> cases he <;> rfl
  | _ =>
    cases he
    rfl

/-- What an instruction does to memory: nothing, or its block is stored and lies within the address space. -/
theorem mem_of_exec (he : exec i s = .next t) :
    t.mem = s.mem ∨ s.dataAddr 0 + (storedBytes i s).length ≤ 4096
      ∧ t.mem = Memory.writeBlock s.mem (s.dataAddr 0) (storedBytes i s) := by
  by_cases hw : .mem ∈ writesParts i
  · rw [exec_store hw] at he
    rcases withBlock_eq_next he with ⟨k, rfl⟩ | ⟨h0 | hin, rfl⟩
    · exact .inl rfl
    · rw [List.eq_nil_of_length_eq_zero h0]
      exact .inl rfl
    · exact .inr ⟨hin, rfl⟩
  · exact .inl (mem_of_exec_of_not_store hw he)

theorem MemoryCanonical.of_exec (h : MemoryCanonical s) (he : exec i s = .next t) : MemoryCanonical t := by
  unfold MemoryCanonical
  rcases mem_of_exec he with hm | ⟨hin, hm⟩ <;> rw [hm]
  · exact h
  · exact Memory.wf_writeBlock h hin

/-- An address outside the block of an instruction reads as before (R53). -/
theorem read_of_exec (h : MemoryCanonical s) (he : exec i s = .next t) {a : Nat} (ha : storesTo i s a = false) :
    Memory.read t.mem a = Memory.read s.mem a := by
  rcases mem_of_exec he with hm | ⟨hin, hm⟩ <;> rw [hm]
  have hout : ¬ (s.dataAddr 0 ≤ a ∧ a < s.dataAddr 0 + (storedBytes i s).length) := by
    rw [← storesTo_iff, ha]
    exact Bool.false_ne_true
  exact Memory.read_writeBlock_outside h hin (by omega)

/-! ### The host's operations -/

/-- A step is the first operation of the schedule, or a cycle when none is listed (R266). -/
theorem step_eq_hostOp (s : State) : ∃ op rest, step s = hostOp op { s with pending := rest } := by
  unfold step nextStep
  split
  · exact ⟨.cycle, s.pending, rfl⟩
  · exact ⟨_, _, rfl⟩

@[simp] theorem setKey_mem (index : Int) (pressed : Bool) (s : State) : (setKey index pressed s).mem = s.mem := by
  unfold setKey
  split <;> rfl

/-- The operations of the host that may write memory are four (R65, R292). -/
theorem mem_of_hostOp {op : HostOp} (h : hostOp op s = .next t) :
    t.mem = s.mem ∨ op = .cycle ∨ op = .reset ∨ (∃ bytes, op = .loadProgram bytes) ∨ op = .writeFont := by
  cases op with
  | setKey index pressed =>
    cases h
    exact .inl (setKey_mem index pressed s)
  | tick =>
    rcases tick_cases s with ⟨k, -, ht⟩ | ⟨-, ht⟩ <;> cases ht.symm.trans h
    exact .inl rfl
  | read port =>
    cases h
    exact .inl rfl
  | _ => simp

/-- The boot's font write is taken in the state right after reset, and writes 0x000 to 0x04F at most (R292). -/
theorem bootFont_eq_next (h : bootFont s = .next t) : resetBlock s = s ∧ t = writeFont s := by
  rcases bootFont_cases s with ⟨hreset, hb⟩ | ⟨-, hb⟩
  · cases hb.symm.trans h
    exact ⟨hreset, rfl⟩
  · cases hb.symm.trans h

theorem canonical_of_resetBlock_eq (h : resetBlock s = s) : MemoryCanonical s :=
  h ▸ Memory.wf_reset

theorem read_writeFont_above (h : MemoryCanonical s) {a : Nat} (ha : 80 ≤ a) :
    Memory.read (writeFont s).mem a = Memory.read s.mem a := by
  rw [writeFont_mem]
  split
  · exact Memory.read_writeBlock_outside h (by simp) (.inr (by simpa using ha))
  · rfl

theorem MemoryCanonical.of_hostOp {op : HostOp} (h : MemoryCanonical s) (hop : hostOp op s = .next t) :
    MemoryCanonical t := by
  rcases mem_of_hostOp hop with hm | rfl | rfl | ⟨bytes, rfl⟩ | rfl
  · unfold MemoryCanonical
    rw [hm]
    exact h
  · rcases cycle_eq_next hop with ⟨k, rfl⟩ | ⟨-, he⟩
    · exact h
    · exact h.of_exec he
  · cases hop
    exact Memory.wf_reset
  · cases hop
    exact loadProgram_wf bytes h
  · obtain ⟨-, rfl⟩ := bootFont_eq_next hop
    exact writeFont_wf h

/-! ### What Fx55 stores -/

/-- Fx55 puts Vk at I + k, for every k up to x (R189). -/
theorem read_of_exec_storeRegs {x : Nibble} (h : MemoryCanonical s) (hin : s.i.toNat + x.toNat < 4096)
    (he : exec (.storeRegs x) s = .next t) {k : Nat} (hk : k ≤ x.toNat) :
    Memory.read t.mem (s.i.toNat + k) = s.getV (BitVec.ofNat 4 k) := by
  have hlen : (storedBytes (.storeRegs x) s).length = x.toNat + 1 := s.regsUpTo_length x
  exact (read_of_exec_store (by simp [writesParts]) h (by omega) he (by omega)).trans (s.regsUpTo_getElem x k _)

/-- The first byte of a fetch is the high one (R50). -/
theorem joinBytes_toNat (hi lo : Byte) : (joinBytes hi lo).toNat = hi.toNat * 256 + lo.toNat := by
  unfold joinBytes
  rw [BitVec.toNat_append, Nat.shiftLeft_eq, ← Nat.mul_comm, Nat.two_pow_add_eq_or_of_lt lo.isLt, Nat.mul_comm]

end Writers

/-! ### The statements of the family -/

/-- Settles O56: a step is one operation of the host, and each of them keeps the canonical form. -/
theorem stepKeepsMemoryCanonical : Obligations.StepKeepsMemoryCanonical := by
  intro s t h hstep
  obtain ⟨op, rest, hop⟩ := step_eq_hostOp s
  have hrest : MemoryCanonical { s with pending := rest } := h
  exact hrest.of_hostOp (hop.symm.trans hstep)

/-- Settles O17: an instruction writes its block only, and of the host's operations that may write memory the font write is
the boot's. -/
theorem memoryWrittenOnlyByFx33AndFx55 : Obligations.MemoryWrittenOnlyByFx33AndFx55 := by
  refine ⟨fun i s t a h he ha => read_of_exec h he ha, fun op s t a hop hne => ?_, fun s hs => ?_⟩
  · rcases mem_of_hostOp hop with hm | hcycle | hreset | hload | rfl
    · exact absurd (by rw [hm]) hne
    · exact .inl hcycle
    · exact .inr (.inl hreset)
    · exact .inr (.inr (.inl hload))
    · obtain ⟨hreset, rfl⟩ := bootFont_eq_next hop
      refine .inr (.inr (.inr ⟨rfl, hreset, ?_⟩))
      by_contra ha
      exact hne (read_writeFont_above (canonical_of_resetBlock_eq hreset) (by omega))
  · rcases bootFont_cases s with ⟨hreset, -⟩ | ⟨-, hb⟩
    · exact absurd hreset hs
    · exact hb

/-- Settles O42: the new pc is I + k, where Fx55 has put Vk and, one address on, V(k+1). -/
theorem storedBytesAreFetchedNext : Obligations.StoredBytesAreFetchedNext := by
  intro s t x k h hin he hk hpc
  have hnext : BitVec.ofNat 4 (k.toNat + 1) = k + 1#4 := by rw [BitVec.ofNat_add, BitVec.ofNat_toNat, BitVec.setWidth_eq]
  rw [State.fetchWord, joinBytes_toNat, ← hpc, Nat.add_assoc, read_of_exec_storeRegs h hin he hk.le,
    read_of_exec_storeRegs h hin he hk, hnext, BitVec.ofNat_toNat, BitVec.setWidth_eq]

end Sys2Proof.Machine
end

section
/-! SUPPORT. The decoder and the encoder undo each other, and the decoder agrees with the list of unmatched words and with the
rows of the opcode table (spec/30_encoding.md R71 to R76). -/

namespace Sys2Proof

open Machine

section Encoding

variable {p : Params} {op : Word} {i : Instr}

/-! ### The fields as numbers (R71) -/

theorem Field.family_eq_iff (f : Nibble) : Field.family op = f ↔ op.toNat / 0x1000 = f.toNat := by
  have hlt : op.toNat < 0x10000 := op.isLt
  rw [← BitVec.toNat_inj, Field.family, BitVec.extractLsb'_toNat, Nat.shiftRight_eq_div_pow]
  omega

theorem Field.n_eq_iff (n : Nibble) : Field.n op = n ↔ op.toNat % 16 = n.toNat := by
  rw [← BitVec.toNat_inj, Field.n, BitVec.extractLsb'_toNat, Nat.shiftRight_zero]

theorem Field.nn_eq_iff (nn : Byte) : Field.nn op = nn ↔ op.toNat % 256 = nn.toNat := by
  rw [← BitVec.toNat_inj, Field.nn, BitVec.extractLsb'_toNat, Nat.shiftRight_zero]

/-! ### The unmatched words (R76) -/

theorem lowNibble_eq_strict_iff : p.lowNibble = .strict ↔ p.lowNibble ≠ .ignore := by
  cases p.lowNibble <;> simp

theorem bnnnMode_eq_unmatched_iff : p.bnnnMode = .unmatched ↔ p.bnnnMode ≠ .jumpV0 := by
  cases p.bnnnMode <;> simp

/-- The list of unmatched words, read through the fields of R71. -/
theorem unmatchedWord_iff : unmatchedWord p op = true ↔
    (Field.family op = 0x0#4 ∧ op ∉ [0x00E0#16, 0x00EE#16])
      ∨ ((Field.family op = 0x5#4 ∨ Field.family op = 0x9#4) ∧ Field.n op ≠ 0x0#4 ∧ p.lowNibble = .strict)
      ∨ (Field.family op = 0x8#4 ∧ Field.n op ∈ [0x8#4, 0x9#4, 0xA#4, 0xB#4, 0xC#4, 0xD#4, 0xF#4])
      ∨ (Field.family op = 0xB#4 ∧ p.bnnnMode = .unmatched)
      ∨ (Field.family op = 0xE#4 ∧ Field.nn op ∉ [0x9E#8, 0xA1#8])
      ∨ (Field.family op = 0xF#4
          ∧ Field.nn op ∉ [0x07#8, 0x0A#8, 0x15#8, 0x18#8, 0x1E#8, 0x29#8, 0x33#8, 0x55#8, 0x65#8]) := by
  have merge (a b c d e r : Prop) : a ∨ (b ∧ d) ∨ c ∨ (e ∧ d) ∨ r ↔ a ∨ ((b ∨ e) ∧ d) ∨ c ∨ r := by tauto
  rw [← merge]
  simp [unmatchedWord, Field.family, Field.n, Field.nn, and_assoc, or_assoc]

/-- The function codes of family 8 that no row has are the ones that R76 lists. -/
theorem unusedCode8_iff : ∀ n : Nibble, n ∈ [0x8#4, 0x9#4, 0xA#4, 0xB#4, 0xC#4, 0xD#4, 0xF#4] ↔
    n ∉ [0x0#4, 0x1#4, 0x2#4, 0x3#4, 0x4#4, 0x5#4, 0x6#4, 0x7#4, 0xE#4] := by
  decide

/-- A listed word is decoded as unmatched: it meets the condition of no row of its family. -/
theorem decode_of_unmatchedWord (h : unmatchedWord p op = true) : decode p op = .unmatched op := by
  rcases unmatchedWord_iff.1 h with
    ⟨hf, hop⟩ | ⟨hf | hf, hn, hp⟩ | ⟨hf, hn⟩ | ⟨hf, hp⟩ | ⟨hf, hnn⟩ | ⟨hf, hnn⟩
  · simp_all [decode, decode0]
  · simp [decode, hf, decode5, hn, hp]
  · simp [decode, hf, decode9, hn, hp]
  · rw [unusedCode8_iff] at hn
    simp_all [decode, decode8]
  · simp [decode, hf, decodeB, hp]
  · simp_all [decode, decodeE]
  · simp_all [decode, decodeF]

/-! ### Decoding an encoded instruction -/

/-- The fields of the layout are the operands, and the function code selects the constructor within the family. -/
theorem decode_encode (h : i.wellFormed p = true) : decode p (encode i) = i := by
  cases i with
  | cls | ret => rfl
  | jp _ | call _ | ldI _ | seByte _ _ | sneByte _ _ | ldByte _ _ | addByte _ _ | rnd _ _ | drw _ _ _ =>
    simp [encode, decode]
  | seReg _ _ => simp [encode, decode, decode5]
  | ldReg _ _ | orReg _ _ | andReg _ _ | xorReg _ _ | addReg _ _ | sub _ _ | shr _ _ | subn _ _ | shl _ _ =>
    simp [encode, decode, decode8]
  | sneReg _ _ => simp [encode, decode, decode9]
  | jpV0 _ =>
    have hp : p.bnnnMode = .jumpV0 := by simpa [Instr.wellFormed] using h
    simp [encode, decode, decodeB, hp]
  | skp _ | sknp _ => simp [encode, decode, decodeE]
  | ldVxDt _ | ldVxK _ | ldDtVx _ | ldStVx _ | addI _ | ldF _ | ldB _ | storeRegs _ | loadRegs _ =>
    simp [encode, decode, decodeF]
  | unmatched op => exact decode_of_unmatchedWord h

/-! ### The instruction of a word -/

/-- `i` is a right answer to the word `op`: it is well formed and, under STRICT, holds every bit of the word. -/
structure Answers (p : Params) (op : Word) (i : Instr) : Prop where
  wellFormed : i.wellFormed p = true
  encode_eq : p.lowNibble = .strict → encode i = op

theorem Answers.unmatched (h : unmatchedWord p op = true) : Answers p op (.unmatched op) := ⟨h, fun _ => rfl⟩

/-- An instruction of format `nnn` that carries the word's fields answers to the word. -/
theorem Answers.nnn {f : Nibble} (hwf : i.wellFormed p = true) (he : encode i = Layout.nnn f (Field.nnn op))
    (hf : Field.family op = f) : Answers p op i :=
  ⟨hwf, fun _ => by rw [he, ← hf, Layout.nnn_fields]⟩

/-- An instruction of format `xnn` or `x_func` that carries the word's fields answers to the word. -/
theorem Answers.xnn {f : Nibble} {nn : Byte} (hwf : i.wellFormed p = true)
    (he : encode i = Layout.xnn f (Field.x op) nn) (hf : Field.family op = f) (hnn : Field.nn op = nn) : Answers p op i :=
  ⟨hwf, fun _ => by rw [he, ← hf, ← hnn, Layout.xnn_fields]⟩

/-- An instruction of format `xyn` or `xy_func` that carries the word's fields answers to the word; the low nibble has to
agree under STRICT only (R120). -/
theorem Answers.xyn {f n : Nibble} (hwf : i.wellFormed p = true)
    (he : encode i = Layout.xyn f (Field.x op) (Field.y op) n) (hf : Field.family op = f)
    (hn : p.lowNibble = .strict → Field.n op = n) : Answers p op i :=
  ⟨hwf, fun hp => by rw [he, ← hf, ← hn hp, Layout.xyn_fields]⟩

theorem answers_decode0 (hf : Field.family op = 0x0#4) : Answers p op (decode0 op) := by
  unfold decode0
  split_ifs with hcls hret
  · exact ⟨rfl, fun _ => hcls.symm⟩
  · exact ⟨rfl, fun _ => hret.symm⟩
  · exact .unmatched (unmatchedWord_iff.2 (.inl ⟨hf, by simp [hcls, hret]⟩))

/-- Families 5 and 9: the low nibble is checked under STRICT only (R120). -/
theorem answers_lowNibble {f : Nibble} (hwf : i.wellFormed p = true)
    (he : encode i = Layout.xyn f (Field.x op) (Field.y op) 0x0#4) (hf : Field.family op = f) (h59 : f = 0x5#4 ∨ f = 0x9#4) :
    Answers p op (if Field.n op = 0x0#4 ∨ p.lowNibble = .ignore then i else .unmatched op) := by
  split_ifs with h
  · exact .xyn hwf he hf fun hp => h.resolve_right (lowNibble_eq_strict_iff.1 hp)
  · obtain ⟨hn, hp⟩ := not_or.1 h
    exact .unmatched (unmatchedWord_iff.2 (.inr (.inl ⟨hf ▸ h59, hn, lowNibble_eq_strict_iff.2 hp⟩)))

theorem answers_decode8 (hf : Field.family op = 0x8#4) : Answers p op (decode8 op) := by
  simp only [decode8]
  split_ifs
  case neg => exact .unmatched (unmatchedWord_iff.2 (.inr (.inr (.inl ⟨hf, (unusedCode8_iff _).2 (by simp [*])⟩))))
  all_goals exact .xyn rfl rfl hf fun _ => ‹_›

theorem answers_decodeB (hf : Field.family op = 0xB#4) : Answers p op (decodeB p op) := by
  unfold decodeB
  split_ifs with hp
  · exact .nnn (beq_iff_eq.2 hp) rfl hf
  · exact .unmatched (unmatchedWord_iff.2 (by simp [hf, bnnnMode_eq_unmatched_iff.2 hp]))

theorem answers_decodeE (hf : Field.family op = 0xE#4) : Answers p op (decodeE op) := by
  simp only [decodeE]
  split_ifs
  case neg => exact .unmatched (unmatchedWord_iff.2 (by simp [*]))
  all_goals exact .xnn rfl rfl hf ‹_›

theorem answers_decodeF (hf : Field.family op = 0xF#4) : Answers p op (decodeF op) := by
  simp only [decodeF]
  split_ifs
  case neg => exact .unmatched (unmatchedWord_iff.2 (by simp [*]))
  all_goals exact .xnn rfl rfl hf ‹_›

/-- Every word gets a right answer, family by family (R74). -/
theorem answers_decode (p : Params) (op : Word) : Answers p op (decode p op) := by
  have hfamily : ∀ f : Nibble, f = 0x0#4 ∨ f = 0x1#4 ∨ f = 0x2#4 ∨ f = 0x3#4 ∨ f = 0x4#4 ∨ f = 0x5#4 ∨ f = 0x6#4 ∨ f = 0x7#4
      ∨ f = 0x8#4 ∨ f = 0x9#4 ∨ f = 0xA#4 ∨ f = 0xB#4 ∨ f = 0xC#4 ∨ f = 0xD#4 ∨ f = 0xE#4 ∨ f = 0xF#4 := by decide
  unfold decode
  rcases hfamily (Field.family op) with
    hf | hf | hf | hf | hf | hf | hf | hf | hf | hf | hf | hf | hf | hf | hf | hf
  all_goals rw [hf]
  · exact answers_decode0 hf
  · exact .nnn rfl rfl hf
  · exact .nnn rfl rfl hf
  · exact .xnn rfl rfl hf rfl
  · exact .xnn rfl rfl hf rfl
  · exact answers_lowNibble rfl rfl hf (.inl rfl)
  · exact .xnn rfl rfl hf rfl
  · exact .xnn rfl rfl hf rfl
  · exact answers_decode8 hf
  · exact answers_lowNibble rfl rfl hf (.inr rfl)
  · exact .nnn rfl rfl hf
  · exact answers_decodeB hf
  · exact .xnn rfl rfl hf rfl
  · exact .xyn rfl rfl hf fun _ => rfl
  · exact answers_decodeE hf
  · exact answers_decodeF hf

theorem decode_eq_unmatched_iff : decode p op = .unmatched op ↔ unmatchedWord p op = true := by
  refine ⟨fun h => ?_, decode_of_unmatchedWord⟩
  have hwf := (answers_decode p op).wellFormed
  rwa [h] at hwf

/-! ### The rows of the opcode table -/

/-- The word of an instruction carries the fixed bits of its row; one mask per format (R72). -/
theorem encode_and_rowMask (i : Instr) : encode i &&& i.row.2 = i.row.1 := by
  open Laws.EncodesRow in
  cases i with
  | cls | ret => rfl
  | jp _ | call _ | ldI _ | jpV0 _ => exact maskNnn _ _
  | seByte _ _ | sneByte _ _ | ldByte _ _ | addByte _ _ | rnd _ _ => exact maskXnn _ _ _
  | seReg _ _ | ldReg _ _ | orReg _ _ | andReg _ _ | xorReg _ _ | addReg _ _ | sub _ _ | shr _ _ | subn _ _ | shl _ _
  | sneReg _ _ => exact maskXyFunc _ _ _ _
  | drw _ _ _ => exact maskXyn _ _ _ _
  | skp _ | sknp _ | ldVxDt _ | ldVxK _ | ldDtVx _ | ldStVx _ | addI _ | ldF _ | ldB _ | storeRegs _ | loadRegs _ =>
    exact maskXFunc _ _ _
  | unmatched op => exact Laws.EncodesRow.unmatched op

/-- Where the mask has ones only, a word that matches under the mask has the bits of the match value. -/
theorem extractLsb'_of_mask {mask w : Word} {start len : Nat} (h : op &&& mask = w)
    (hmask : mask.extractLsb' start len = BitVec.allOnes len) : op.extractLsb' start len = w.extractLsb' start len := by
  rw [← h, BitVec.extractLsb'_and, hmask, BitVec.and_allOnes]

/-- A word that matches a selected row is decoded to that row: the fixed fields of the row decide the decoder's branch. -/
theorem row_decode_of_matches (hwf : i.wellFormed p = true) (hmask : i.row.2 ≠ 0#16)
    (h : op &&& i.row.2 = i.row.1) : (decode p op).row = i.row := by
  cases i with
  | cls | ret =>
    obtain rfl : op = _ := BitVec.and_allOnes.symm.trans h
    rfl
  | unmatched _ => exact absurd rfl hmask
  | jp _ | call _ | ldI _ | seByte _ _ | sneByte _ _ | ldByte _ _ | addByte _ _ | rnd _ _ | drw _ _ _ =>
    simp only [Instr.row] at h
    have hf : Field.family op = _ := extractLsb'_of_mask h (by decide)
    simp [decode, hf, Instr.row]
  | jpV0 _ =>
    simp only [Instr.row] at h
    have hf : Field.family op = _ := extractLsb'_of_mask h (by decide)
    have hp : p.bnnnMode = .jumpV0 := by simpa [Instr.wellFormed] using hwf
    simp [decode, hf, decodeB, hp, Instr.row]
  | seReg _ _ | sneReg _ _ | ldReg _ _ | orReg _ _ | andReg _ _ | xorReg _ _ | addReg _ _ | sub _ _ | shr _ _ | subn _ _
  | shl _ _ =>
    simp only [Instr.row] at h
    have hf : Field.family op = _ := extractLsb'_of_mask h (by decide)
    have hn : Field.n op = _ := extractLsb'_of_mask h (by decide)
    simp [decode, hf, decode5, decode8, decode9, hn, Instr.row]
  | skp _ | sknp _ | ldVxDt _ | ldVxK _ | ldDtVx _ | ldStVx _ | addI _ | ldF _ | ldB _ | storeRegs _ | loadRegs _ =>
    simp only [Instr.row] at h
    have hf : Field.family op = _ := extractLsb'_of_mask h (by decide)
    have hnn : Field.nn op = _ := extractLsb'_of_mask h (by decide)
    simp [decode, hf, decodeE, decodeF, hnn, Instr.row]

end Encoding

/-! ### The statements of the family -/

/-- Settles O1: the fields of an encoded instruction are its operands. -/
theorem decodeInvertsEncode : Obligations.DecodeInvertsEncode := fun _ _ h => decode_encode h

/-- Settles O2: a decoded instruction is a right answer, which under STRICT keeps every bit. -/
theorem encodeInvertsDecodeUnderStrict : Obligations.EncodeInvertsDecodeUnderStrict :=
  fun p op hp => (answers_decode p op).encode_eq hp

/-- Settles O3: a decoded instruction is a right answer, so well formed. -/
theorem decodedInstructionIsWellFormed : Obligations.DecodedInstructionIsWellFormed :=
  fun p op => (answers_decode p op).wellFormed

/-- Settles O4: the unmatched words are the list's, whose fields are read here as numbers; executing one is `advance`. -/
theorem unmatchedWordsAreTheListedNoOps : Obligations.UnmatchedWordsAreTheListedNoOps := by
  refine ⟨fun op => ?_, fun op s => rfl⟩
  rw [decode_eq_unmatched_iff, unmatchedWord_iff]
  refine or_congr ?_ (or_congr ?_ (or_congr ?_ (or_congr ?_ (or_congr ?_ ?_))))
  · simp [Field.family_eq_iff]
  · simp [Field.family_eq_iff, Field.n_eq_iff, defaultParams]
  · simp only [Field.family_eq_iff, Field.n_eq_iff, List.mem_cons, List.not_mem_nil, or_false, BitVec.toNat_ofNat]
    omega
  · simp [Field.family_eq_iff, defaultParams]
  · simp [Field.family_eq_iff, Field.nn_eq_iff]
  · simp [Field.family_eq_iff, Field.nn_eq_iff]

/-- Settles O7: the word is the encoding of its decoded instruction, which carries the bits of its row. -/
theorem decodeSelectsATableRow : Obligations.DecodeSelectsATableRow := by
  refine fun p op hp => ⟨?_, fun i => row_decode_of_matches⟩
  have hrow := encode_and_rowMask (decode p op)
  rwa [(answers_decode p op).encode_eq hp] at hrow

/-- Settles O8, by running the decoder on the nine words. -/
theorem writtenOutWordsDecode : Obligations.WrittenOutWordsDecode := by
  unfold Obligations.WrittenOutWordsDecode
  decide

end Sys2Proof
end

section
/-! SUPPORT. The cycle (spec/40_cycle.md): the word that it fetches, the instruction that it runs or the fault of the fetch, and
the pc that it leaves. -/

namespace Sys2Proof.Machine

section Cycle

variable {s t : State} {i : Instr}

/-! ### Fetch, and what a cycle runs -/

theorem State.fetchWord_toNat (s : State) :
    s.fetchWord.toNat
      = (Memory.read s.mem s.pc.toNat).toNat * 256 + (Memory.read s.mem (s.pc.toNat + 1)).toNat :=
  joinBytes_toNat _ _

/-- The bytes at pc and pc + 1 are one instruction and nothing more (R70, R91). -/
theorem decodeBytes_eq_ok_iff_decode_fetchWord (s : State) :
    decodeBytes s.params [Memory.read s.mem s.pc.toNat, Memory.read s.mem (s.pc.toNat + 1)] = .ok (i, [])
      ↔ decode s.params s.fetchWord = i := by
  simp [decodeBytes, State.fetchWord]

theorem cycle_of_fetch_inside (hs : s.fault = none) (hpc : s.pc.toNat < 0xFFF) :
    cycle s = exec (decode s.params s.fetchWord) s := by
  rcases cycle_cases s with ⟨k, hk, -⟩ | ⟨-, hout, -⟩ | ⟨-, -, hc⟩
  · simp [hs] at hk
  · omega
  · exact hc

theorem cycle_of_fetch_outside (hs : s.fault = none) (hpc : 0xFFF ≤ s.pc.toNat) :
    cycle s = .next { s with fault := some .addressOutOfRange } := by
  rcases cycle_cases s with ⟨k, hk, -⟩ | ⟨-, -, hc⟩ | ⟨-, hin, -⟩
  · simp [hs] at hk
  · exact hc
  · omega

/-! ### A step that is a cycle -/

theorem step_of_pending_nil (h : s.pending = []) : step s = cycle s := by
  rw [step, nextStep, h]

theorem step_of_pending_cons {op : HostOp} {rest : List HostOp} (h : s.pending = op :: rest) :
    step s = hostOp op { s with pending := rest } := by
  rw [step, nextStep, h]

/-! ### The next pc -/

theorem Completes.of_exec (hf : faultCondition i s = none) (he : exec i s = .next t) : Completes i s t := by
  rcases exec_cases i s with ⟨k, hk, -⟩ | ⟨-, u, hu, hc⟩
  · simp [hf] at hk
  · cases hu.symm.trans he
    exact hc

/-- The last row of the table of R95 is that of every instruction but jump, call, return, skip and wait-for-key. -/
theorem nextPc_of_not_isControlFlow (s : State) (h : isControlFlow i = false) : nextPc i s = s.pc + 2#16 := by
  cases i with
  | jp | call | ret | seByte | sneByte | seReg | sneReg | skp | sknp | ldVxK | jpV0 => cases h
  | _ => rfl

end Cycle

/-! ### The statements of the family -/

/-- Settles O13: an instruction that raises no fault completes, and the table's pc is part of completing. -/
theorem nextPcFollowsTheTable : Obligations.NextPcFollowsTheTable :=
  fun _ _ _ hf he => (Completes.of_exec hf he).pc

/-- Settles O14: a cycle that leaves the latch clear has completed its instruction, here one of the last row of R95. -/
theorem plainInstructionsAdvanceByTwo : Obligations.PlainInstructionsAdvanceByTwo := by
  intro s t hs hpc hplain hcycle ht
  rw [cycle_of_fetch_inside hs hpc] at hcycle
  rcases faulted_or_completes_of_exec hcycle with ⟨k, rfl⟩ | ⟨-, hc⟩
  · cases ht
  · exact hc.pc.trans (nextPc_of_not_isControlFlow s hplain)

/-- Settles O9: the cycle reads the parameters, memory and pc, which are the same once the schedule has lost its entry. -/
theorem stepRunsDecodedInstruction : Obligations.StepRunsDecodedInstruction := by
  intro s i hs hpc hdecode
  obtain rfl := (decodeBytes_eq_ok_iff_decode_fetchWord s).1 hdecode
  refine ⟨s.fetchWord_toNat, fun hnil => ?_, fun rest hcons => ?_⟩
  · rw [step_of_pending_nil hnil, cycle_of_fetch_inside hs hpc]
  · rw [step_of_pending_cons hcons]
    exact cycle_of_fetch_inside (s := { s with pending := rest }) hs hpc

/-- Settles O10: both conditions on the fetch speak of pc at 0xFFF. -/
theorem fetchPastTheEndLatchesAddressFault : Obligations.FetchPastTheEndLatchesAddressFault :=
  fun s hs => ⟨fun hpc => cycle_of_fetch_outside hs (by omega),
    fun hpc => ⟨s.fetchWord_toNat, cycle_of_fetch_inside hs (by omega)⟩⟩

end Sys2Proof.Machine
end

section
/-! SUPPORT. Control flow (spec/41_control_flow.md): call and return by their outcomes, the skips in the form of their rules, and
the words of families 5, 9 and B under the parameters. -/

namespace Sys2Proof.Machine

section ControlFlow

variable {s : State} {p : Params} {x y n : Nibble} {nnn : Addr}

/-! ### Call and return -/

theorem exec_call_of_full (h : s.sp.val = 16) : exec (.call nnn) s = raise .stackOverflow s := by
  rcases exec_call_cases nnn s with ⟨-, hc⟩ | ⟨hlt, -⟩
  · exact hc
  · omega

theorem exec_call_of_lt (h : s.sp.val < 16) : exec (.call nnn) s = .next
    (State.setPc { s with stack := s.stack.set s.sp.val s.pc h, sp := ⟨s.sp.val + 1, by omega⟩ } (addrValue nnn)) := by
  rcases exec_call_cases nnn s with ⟨hfull, -⟩ | ⟨_, hc⟩
  · omega
  · exact hc

theorem exec_ret_of_empty (h : s.sp.val = 0) : exec .ret s = raise .stackUnderflow s := by
  rcases exec_ret_cases s with ⟨-, hc⟩ | ⟨hpos, -⟩
  · exact hc
  · omega

/-- With k + 1 entries in use, RET continues past entry k. -/
theorem exec_ret_of_succ {k : Nat} (hk : k < 16) (h : s.sp.val = k + 1) :
    exec .ret s = .next (State.setPc { s with sp := ⟨k, by omega⟩ } (s.stack[k] + 2#16)) := by
  rcases exec_ret_cases s with ⟨hempty, -⟩ | ⟨_, hc⟩
  · omega
  · simpa only [h, Nat.add_sub_cancel] using hc

/-! ### The skips (R116 to R119) -/

/-- A skip on equality advances twice when the values are equal (R95). -/
theorem State.skipIf_beq (s : State) (a b : Byte) :
    s.skipIf (a == b) = { s with pc := if a = b then s.pc + 4#16 else s.pc + 2#16 } := by
  by_cases h : a = b <;> simp [State.skipIf, State.setPc, h]

/-- A skip on difference advances once when the values are equal (R95). -/
theorem State.skipIf_bne (s : State) (a b : Byte) :
    s.skipIf (a != b) = { s with pc := if a = b then s.pc + 2#16 else s.pc + 4#16 } := by
  by_cases h : a = b <;> simp [State.skipIf, State.setPc, h]

theorem exec_seByte (x : Nibble) (nn : Byte) (s : State) :
    exec (.seByte x nn) s = .next { s with pc := if s.getV x = nn then s.pc + 4#16 else s.pc + 2#16 } :=
  congrArg _ (s.skipIf_beq _ _)

theorem exec_sneByte (x : Nibble) (nn : Byte) (s : State) :
    exec (.sneByte x nn) s = .next { s with pc := if s.getV x = nn then s.pc + 2#16 else s.pc + 4#16 } :=
  congrArg _ (s.skipIf_bne _ _)

theorem exec_seReg (x y : Nibble) (s : State) :
    exec (.seReg x y) s = .next { s with pc := if s.getV x = s.getV y then s.pc + 4#16 else s.pc + 2#16 } :=
  congrArg _ (s.skipIf_beq _ _)

theorem exec_sneReg (x y : Nibble) (s : State) :
    exec (.sneReg x y) s = .next { s with pc := if s.getV x = s.getV y then s.pc + 2#16 else s.pc + 4#16 } :=
  congrArg _ (s.skipIf_bne _ _)

/-! ### Families 5, 9 and B -/

/-- A word that decodes to no row executes as the no-op of R98. -/
theorem exec_decode_of_unmatched {op : Word} (h : decode p op = .unmatched op) (s : State) :
    exec (decode p op) s = .next { s with pc := s.pc + 2#16 } := by
  rw [h]
  exact unmatchedWordsAreTheListedNoOps.2 op s

/-- STRICT checks the low nibble of families 5 and 9 (R120). -/
theorem decode_xyn_of_strict {f : Nibble} (hf : f = 0x5#4 ∨ f = 0x9#4) (hn : n ≠ 0x0#4) (hp : p.lowNibble = .strict) :
    decode p (Layout.xyn f x y n) = .unmatched (Layout.xyn f x y n) :=
  decode_of_unmatchedWord (unmatchedWord_iff.2 (.inr (.inl ⟨by simpa using hf, by simpa using hn, hp⟩)))

/-- IGNORE decodes every word of family 5 as SE Vx, Vy (R120). -/
theorem decode_family5_of_ignore (hp : p.lowNibble = .ignore) : decode p (Layout.xyn 0x5#4 x y n) = .seReg x y := by
  simp [decode, decode5, hp]

/-- IGNORE decodes every word of family 9 as SNE Vx, Vy (R120). -/
theorem decode_family9_of_ignore (hp : p.lowNibble = .ignore) : decode p (Layout.xyn 0x9#4 x y n) = .sneReg x y := by
  simp [decode, decode9, hp]

theorem decode_familyB_of_unmatched (hp : p.bnnnMode = .unmatched) :
    decode p (Layout.nnn 0xB#4 nnn) = .unmatched (Layout.nnn 0xB#4 nnn) :=
  decode_of_unmatchedWord (unmatchedWord_iff.2 (by simp [hp]))

/-- A 12-bit and an 8-bit value add up below 2^16 (R124). -/
theorem addrValue_add_byteValue_toNat (nnn : Addr) (b : Byte) :
    (addrValue nnn + byteValue b).toNat = nnn.toNat + b.toNat := by
  unfold addrValue byteValue
  bv_omega

end ControlFlow

/-! ### The statements of the family -/

/-- Settles O26: the CALL leaves its own address in the entry that the RET takes. -/
theorem callThenRetReturns : Obligations.CallThenRetReturns := by
  intro s t u nnn hsp hcall hstack husp
  cases (exec_call_of_lt hsp).symm.trans hcall
  have hentry : u.stack[s.sp.val] = s.pc := by simp [hstack]
  refine ⟨_, exec_ret_of_succ hsp (congrArg Fin.val husp), ?_, rfl⟩
  rw [State.setPc_pc, hentry]

/-- Settles O5, by decoding under each value of LOW_NIBBLE_5_9. -/
theorem lowNibbleDecidesFamiliesFiveAndNine : Obligations.LowNibbleDecidesFamiliesFiveAndNine := by
  refine fun s x y n hn => ⟨fun hp => ?_, fun hp => ?_⟩
  · have h5 := decode_xyn_of_strict (x := x) (y := y) (.inl rfl) hn hp
    have h9 := decode_xyn_of_strict (x := x) (y := y) (.inr rfl) hn hp
    exact ⟨h5, h9, exec_decode_of_unmatched h5 s, exec_decode_of_unmatched h9 s⟩
  · rw [decode_family5_of_ignore hp, decode_family9_of_ignore hp]
    exact ⟨rfl, rfl, exec_seReg x y s, exec_sneReg x y s⟩

/-- Settles O6: under JUMP_V0 the word is the encoding of JP V0, whose sum does not wrap. -/
theorem bnnnModeDecidesFamilyB : Obligations.BnnnModeDecidesFamilyB :=
  fun s nnn => ⟨fun hp => exec_decode_of_unmatched (decode_familyB_of_unmatched hp) s,
    fun hp => decode_encode (i := .jpV0 nnn) (beq_iff_eq.2 hp),
    _, rfl, addrValue_add_byteValue_toNat nnn (s.getV 0x0#4), keeps_setPc s _⟩

/-- Settles O23: the outcomes of RET at SP = 0 and at SP = k + 1. -/
theorem retPopsAndAdvances : Obligations.RetPopsAndAdvances :=
  fun s => ⟨fun _ => decode_encode (i := .ret) rfl, exec_ret_of_empty, fun _ hk hsp =>
    ⟨_, exec_ret_of_succ hk hsp, rfl, BitVec.toNat_add _ _, (keeps_withSp s _).trans (keeps_setPc _ _)⟩⟩

/-- Settles O24. -/
theorem jpSetsPc : Obligations.JpSetsPc :=
  fun _ nnn => ⟨fun _ => decode_encode (i := .jp nnn) rfl, rfl⟩

/-- Settles O25: the outcomes of CALL at SP = 16 and below; the push sets entry SP only. -/
theorem callPushesItsOwnAddress : Obligations.CallPushesItsOwnAddress := by
  refine fun s nnn => ⟨fun _ => decode_encode (i := .call nnn) rfl, exec_call_of_full, fun hsp =>
    ⟨_, exec_call_of_lt hsp, ?_, fun j hj hne => ?_, rfl, rfl, (keeps_withStack s _ _).trans (keeps_setPc _ _)⟩⟩
  · exact Vector.getElem_set_self hsp
  · exact Vector.getElem_set_ne hsp hj hne.symm

/-- Settles O27: both skips compare Vx with nn. -/
theorem skipsOnByte : Obligations.SkipsOnByte := by
  intro s x nn
  refine ⟨fun _ => decode_encode (i := .seByte x nn) rfl, fun _ => decode_encode (i := .sneByte x nn) rfl, ?_⟩
  rw [exec_seByte, exec_sneByte]
  exact ⟨fun h => by simp [h], fun h => by simp [h]⟩

/-- Settles O28: both skips compare Vx with Vy. -/
theorem skipsOnRegisters : Obligations.SkipsOnRegisters := by
  intro s x y
  refine ⟨fun _ => decode_encode (i := .seReg x y) rfl, fun _ => decode_encode (i := .sneReg x y) rfl, ?_⟩
  rw [exec_seReg, exec_sneReg]
  exact ⟨fun h => by simp [h], fun h => by simp [h]⟩

end Sys2Proof.Machine
end

section
/-! SUPPORT. The ALU (spec/42_alu.md): the results and flags as numbers, the two orders of the writes of R150, and
what the instructions leave unchanged. -/

namespace Sys2Proof.Machine

section Alu

variable {s t : State} {x y : Nibble}

/-! ### Results and flags as numbers (R151 to R155) -/

theorem carryFlag_toNat (a b : Byte) : (carryFlag a b).toNat = if a.toNat + b.toNat > 255 then 1 else 0 := by
  by_cases h : 255 < a.toNat + b.toNat <;> simp [carryFlag, flagByte, h]

theorem notBorrowFlag_eq (a b : Byte) : notBorrowFlag a b = if b.toNat ≤ a.toNat then 1#8 else 0#8 := by
  simp only [notBorrowFlag, flagByte, decide_eq_true_eq]

theorem shiftedOutRight_toNat (a : Byte) : (shiftedOutRight a).toNat = a.toNat % 2 := by
  revert a
  decide

theorem shiftedOutLeft_toNat (a : Byte) : (shiftedOutLeft a).toNat = a.toNat / 128 := by
  revert a
  decide

theorem byte_sub_toNat (a b : Byte) : (a - b).toNat = (a.toNat + 256 - b.toNat) % 256 := by
  bv_omega

theorem byte_shiftRight_one_toNat (a : Byte) : (a >>> 1).toNat = a.toNat / 2 := by
  rw [BitVec.toNat_ushiftRight, Nat.shiftRight_one]

theorem byte_shiftLeft_one_toNat (a : Byte) : (a <<< 1).toNat = a.toNat * 2 % 256 := by
  rw [BitVec.toNat_shiftLeft, Nat.shiftLeft_eq]

/-! ### The two orders of result and flag (R150) -/

/-- What VF and Vx hold after the two writes: the flag `f`, and a result that is `r` as a number. Under SEQUENTIAL an operand
that is VF reads as the flag. -/
theorem writeFlagged_values {result flag : Byte → Byte → Byte} {r : Byte → Byte → Nat} {f : Byte}
    (hr : ∀ a b, (result a b).toNat = r a b) (hf : f = flag (s.getV x) (s.getV y))
    (ht : t = (s.writeFlagged result flag x y).advance) :
    (s.params.vfOrder = .flagLast → t.getV vf = f ∧ (x ≠ vf → (t.getV x).toNat = r (s.getV x) (s.getV y)))
      ∧ (s.params.vfOrder = .sequential → (x ≠ vf → t.getV vf = f)
          ∧ (t.getV x).toNat = r (if x = vf then f else s.getV x) (if y = vf then f else s.getV y)) := by
  subst hf ht
  refine ⟨fun ho => ⟨?_, fun hx => ?_⟩, fun ho => ⟨fun hx => ?_, ?_⟩⟩
  · rw [State.advance_getV, State.writeFlagged_flagLast s result flag x y vf ho, if_pos rfl]
  · rw [State.advance_getV, State.writeFlagged_flagLast s result flag x y x ho, if_neg hx, if_pos rfl, hr]
  · rw [State.advance_getV, State.writeFlagged_sequential s result flag x y vf ho, if_neg hx.symm, if_pos rfl]
  · rw [State.advance_getV, State.writeFlagged_sequential s result flag x y x ho, if_pos rfl, hr]

theorem State.setV_comm (s : State) (a b : Byte) (h : x ≠ y) :
    (s.setV x a).setV y b = (s.setV y b).setV x a := by
  have hxy : x.toNat ≠ y.toNat := mt BitVec.eq_of_toNat_eq h
  simp only [State.setV, Vector.set_comm a b hxy]

/-- With no operand in VF the two writes go to different registers and change no operand of each other, so their order does not show. -/
theorem State.writeFlagged_of_ne_vf (s : State) (result flag : Byte → Byte → Byte) (hx : x ≠ vf) (hy : y ≠ vf) :
    s.writeFlagged result flag x y
      = (s.setV x (result (s.getV x) (s.getV y))).setV vf (flag (s.getV x) (s.getV y)) := by
  unfold State.writeFlagged
  split
  · rfl
  · simp [hx, hy, State.setV_comm s _ _ hx]

/-- With no operand in VF the parameter VF_ORDER passes through the instruction. -/
theorem exists_writeFlagged_withOrder (s : State) (result flag : Byte → Byte → Byte) (hx : x ≠ vf) (hy : y ≠ vf) :
    ∃ t, ∀ o, (.next ((withOrder s o).writeFlagged result flag x y).advance : Result) = .next (withOrder t o) :=
  ⟨((s.setV x (result (s.getV x) (s.getV y))).setV vf (flag (s.getV x) (s.getV y))).advance, fun o => by
    rw [State.writeFlagged_of_ne_vf _ result flag hx hy]
    rfl⟩

/-! ### What changes besides the values -/

theorem writesOneReg_setV (s : State) (x : Nibble) (b : Byte) : WritesOneReg x b s (s.setV x b).advance :=
  ⟨by simp, fun z hz => by simp [hz], rfl, (keeps_setV s x b).trans (keeps_advance _)⟩

/-- The five instructions that write a result and a flag have one frame. -/
theorem writesRegAndFlag_of_exec {i : Instr} (hi : i ∈ [.addReg x y, .sub x y, .shr x y, .subn x y, .shl x y])
    (he : exec i s = .next t) : WritesRegAndFlag x s t := by
  have of_table (hf : faultCondition i s = none) (hv : ∀ z, writesV i z = (z == x || z == vf))
      (hpc : nextPc i s = s.pc + 2#16) (hw : writesParts i = [.v, .pc]) : WritesRegAndFlag x s t :=
    have hc := Completes.of_exec hf he
    ⟨fun z hx hf => hc.regs z (by simp [hv, hx, hf]), hc.pc.trans hpc, hw ▸ hc.frame⟩
  simp only [List.mem_cons, List.not_mem_nil, or_false] at hi
  rcases hi with rfl | rfl | rfl | rfl | rfl <;> exact of_table rfl (fun _ => rfl) rfl rfl

end Alu

/-! ### The statements of the family -/

/-- Settles O36: 8xy4 does not look at VF_ORDER; the other four write Vx and VF in either order. -/
theorem vfOrdersAgreeWithoutVf : Obligations.VfOrdersAgreeWithoutVf :=
  fun s x y => ⟨⟨((s.setV x (s.getV x + s.getV y)).setV vf (carryFlag (s.getV x) (s.getV y))).advance, fun _ => rfl⟩,
    fun hx hy => ⟨exists_writeFlagged_withOrder s _ _ hx hy, exists_writeFlagged_withOrder s _ _ hx hy,
      exists_writeFlagged_withOrder s _ _ hx hx, exists_writeFlagged_withOrder s _ _ hx hx⟩⟩

/-- Settles O29: both write Vx alone, and the sum is that of `BitVec`. -/
theorem immediateLoadAndAdd : Obligations.ImmediateLoadAndAdd :=
  fun s x nn => ⟨fun _ => decode_encode (i := .ldByte x nn) rfl, fun _ => decode_encode (i := .addByte x nn) rfl,
    ⟨_, rfl, writesOneReg_setV s x _⟩, _, _, rfl, writesOneReg_setV s x _, BitVec.toNat_add _ _⟩

/-- Settles O30: the four write Vx alone. -/
theorem moveAndLogic : Obligations.MoveAndLogic :=
  fun s x y => ⟨fun _ => ⟨decode_encode (i := .ldReg x y) rfl, decode_encode (i := .orReg x y) rfl,
      decode_encode (i := .andReg x y) rfl, decode_encode (i := .xorReg x y) rfl⟩,
    ⟨_, rfl, writesOneReg_setV s x _⟩, ⟨_, rfl, writesOneReg_setV s x _⟩, ⟨_, rfl, writesOneReg_setV s x _⟩,
    _, rfl, writesOneReg_setV s x _⟩

/-- Settles O31: the carry is written last, over the sum when Vx is VF. -/
theorem addSetsCarry : Obligations.AddSetsCarry := by
  refine fun s x y => ⟨fun _ => decode_encode (i := .addReg x y) rfl, _, rfl,
    writesRegAndFlag_of_exec (i := .addReg x y) (y := y) (by simp) rfl, fun hx => ?_, ?_⟩
  · rw [State.advance_getV, State.getV_setV, if_neg hx, State.getV_setV, if_pos rfl]
    exact BitVec.toNat_add _ _
  · rw [State.advance_getV, State.getV_setV, if_pos rfl, carryFlag_toNat]

/-- Settles O32: the values of a flagged write, for a difference and its not-borrow. -/
theorem subSetsNotBorrow : Obligations.SubSetsNotBorrow :=
  fun s x y _ hf => ⟨fun _ => decode_encode (i := .sub x y) rfl, _, rfl,
    writesRegAndFlag_of_exec (i := .sub x y) (y := y) (by simp) rfl,
    writeFlagged_values byte_sub_toNat (hf.trans (notBorrowFlag_eq _ _).symm) rfl⟩

/-- Settles O33: both operands of the model's shift are Vx, and under SEQUENTIAL a Vx that is VF is a flag shifted right. -/
theorem shrSetsBitShiftedOut : Obligations.ShrSetsBitShiftedOut := by
  intro s x y f hf
  have hflag : f = shiftedOutRight (s.getV x) := BitVec.eq_of_toNat_eq (hf.trans (shiftedOutRight_toNat _).symm)
  obtain ⟨hlast, hseq⟩ := writeFlagged_values (x := x) (y := x) (flag := fun a _ => shiftedOutRight a)
    (fun a _ => byte_shiftRight_one_toNat a) hflag rfl
  refine ⟨fun _ => decode_encode (i := .shr x y) rfl, _, rfl,
    writesRegAndFlag_of_exec (i := .shr x y) (y := y) (by simp) rfl, hlast, fun ho => ?_⟩
  obtain ⟨hvf, hvx⟩ := hseq ho
  refine ⟨fun hx => ⟨hvf hx, by rwa [if_neg hx] at hvx⟩, ?_⟩
  rintro rfl
  rw [if_pos rfl] at hvx
  have hzero : f.toNat / 2 = 0 := by omega
  exact BitVec.eq_of_toNat_eq (hvx.trans hzero)

/-- Settles O34: as O32, with the operands exchanged. -/
theorem subnSetsNotBorrow : Obligations.SubnSetsNotBorrow :=
  fun s x y _ hf => ⟨fun _ => decode_encode (i := .subn x y) rfl, _, rfl,
    writesRegAndFlag_of_exec (i := .subn x y) (y := y) (by simp) rfl,
    writeFlagged_values (fun a b => byte_sub_toNat b a) (hf.trans (notBorrowFlag_eq _ _).symm) rfl⟩

/-- Settles O35: as O33, with a flag shifted left when Vx is VF. -/
theorem shlSetsBitShiftedOut : Obligations.ShlSetsBitShiftedOut := by
  intro s x y f hf
  have hflag : f = shiftedOutLeft (s.getV x) := BitVec.eq_of_toNat_eq (hf.trans (shiftedOutLeft_toNat _).symm)
  obtain ⟨hlast, hseq⟩ := writeFlagged_values (x := x) (y := x) (flag := fun a _ => shiftedOutLeft a)
    (fun a _ => byte_shiftLeft_one_toNat a) hflag rfl
  refine ⟨fun _ => decode_encode (i := .shl x y) rfl, _, rfl,
    writesRegAndFlag_of_exec (i := .shl x y) (y := y) (by simp) rfl, hlast, fun ho => ?_⟩
  obtain ⟨hvf, hvx⟩ := hseq ho
  refine ⟨fun hx => ⟨hvf hx, by rwa [if_neg hx] at hvx⟩, ?_⟩
  rintro rfl
  rw [if_pos rfl] at hvx
  have hlt : (s.getV vf).toNat < 256 := (s.getV vf).isLt
  omega

/-- Settles O37: the byte is whatever `Config.randomByte` gives at the count of draws, so nothing of it is used. -/
theorem rndMasksAFreeByte : Obligations.RndMasksAFreeByte := by
  intro s x nn
  have hresult : (s.setV x (Config.randomByte s.draws &&& nn)).countDraw.advance.getV x
      = Config.randomByte s.draws &&& nn := by simp
  refine ⟨fun _ => decode_encode (i := .rnd x nn) rfl, _, rfl, hresult, fun j hj => ?_, fun z hz => by simp [hz], rfl, rfl,
    (((keeps_setV s x _).trans (keeps_countDraw _)).trans (keeps_advance _)).mono (by simp)⟩
  rw [hresult, BitVec.getLsbD_and, hj, Bool.and_false]

end Sys2Proof.Machine
end

section
/-! SUPPORT. The index register and the memory instructions (spec/43_index_memory.md): the values that I receives, the two
stores as one block store, and the load of a register block. -/

namespace Sys2Proof.Machine

section IndexMemory

variable {i : Instr} {s : State}

/-! ### The values of I (R183, R185), and the digits of a byte (R188) -/

theorem add_byteValue_toNat (w : Word) (b : Byte) : (w + byteValue b).toNat = (w.toNat + b.toNat) % 2 ^ 16 := by
  unfold byteValue
  bv_omega

theorem glyphAddr_toNat (b : Byte) : (glyphAddr b).toNat = b.toNat % 16 * 5 := by
  have hlow : (b &&& 0x0F#8).toNat = b.toNat % 16 := Nat.and_two_pow_sub_one_eq_mod b.toNat 4
  unfold glyphAddr byteValue
  bv_omega

theorem bcdDigits_length (b : Byte) : (bcdDigits b).length = 3 := rfl

theorem bcdDigits_toNat (b : Byte) :
    ((bcdDigits b)[0]'(by rw [bcdDigits_length]; decide)).toNat = b.toNat / 100
      ∧ ((bcdDigits b)[1]'(by rw [bcdDigits_length]; decide)).toNat = b.toNat / 10 % 10
      ∧ ((bcdDigits b)[2]'(by rw [bcdDigits_length]; decide)).toNat = b.toNat % 10 := by
  have hb := b.isLt
  simp only [bcdDigits, List.getElem_cons_zero, List.getElem_cons_succ, BitVec.toNat_ofNat]
  omega

/-! ### Outcomes of an instruction -/

/-- An instruction whose row of R250 gives a fault latches it and writes nothing (R252). -/
theorem exec_of_faultCondition {k : FaultKind} (hf : faultCondition i s = some k) :
    exec i s = .next { s with fault := some k } := by
  rcases exec_cases i s with ⟨k', hk, he⟩ | ⟨hnone, -⟩
  · cases hf.symm.trans hk
    exact he
  · cases hf.symm.trans hnone

theorem exec_setI_advance {w : Word} (he : exec i s = .next (s.setI w).advance) :
    ∃ t, exec i s = .next t ∧ t.i = w ∧ t.pc = s.pc + 2#16 ∧ Keeps [.i, .pc] s t :=
  ⟨_, he, rfl, rfl, (keeps_setI s w).trans (keeps_advance _)⟩

/-! ### A block store -/

/-- From `s` to `t`, the bytes go to I, I + 1, …, pc advances by 2, and nothing else changes. -/
structure StoresAtI (bytes : List Byte) (s t : State) : Prop where
  inside : ∀ k (hk : k < bytes.length), Memory.read t.mem (s.dataAddr k) = bytes[k]
  outside : ∀ a, a < s.dataAddr 0 ∨ s.dataAddr 0 + bytes.length ≤ a → Memory.read t.mem a = Memory.read s.mem a
  pc : t.pc = s.pc + 2#16
  frame : Keeps [.mem, .pc] s t

/-- Fx33 and Fx55 store their block when it lies within the address space (R187, R189). -/
theorem exec_storesAtI (hw : .mem ∈ writesParts i) (h : MemoryCanonical s)
    (hin : s.i.toNat + (storedBytes i s).length ≤ 4096) :
    ∃ t, exec i s = .next t ∧ StoresAtI (storedBytes i s) s t :=
  ⟨_, exec_store_inside hw hin, fun _ hk => Memory.read_writeBlock_inside h hin hk,
    fun _ ha => Memory.read_writeBlock_outside h hin ha, rfl, (keeps_setMem s _).trans (keeps_advance _)⟩

/-! ### The load of a register block -/

/-- Fx65 fills V0 .. Vx when its block lies within the address space (R191). -/
theorem exec_loadRegs_inside {x : Nibble} (hin : s.i.toNat + x.toNat < 4096) :
    exec (.loadRegs x) s = .next (s.fillRegs (s.dataAddr 0) (x.toNat + 1)).advance := by
  change s.withBlock (x.toNat + 1) _ = _
  rcases State.withBlock_cases s (x.toNat + 1) (s.fillRegs (s.dataAddr 0) (x.toNat + 1)).advance with
    ⟨-, hout, -⟩ | ⟨-, hb⟩
  · omega
  · exact hb

/-- The registers up to Vx are those that Fx65 fills. -/
theorem getV_fillRegs_succ (s : State) (base : Nat) (x k : Nibble) :
    (s.fillRegs base (x.toNat + 1)).getV k
      = if k.toNat ≤ x.toNat then Memory.read s.mem (base + k.toNat) else s.getV k := by
  have hx := x.isLt
  rw [State.fillRegs_getV s base _ k (by omega)]
  exact if_congr Nat.lt_succ_iff rfl rfl

end IndexMemory

/-! ### The statements of the family -/

/-- Settles O38: each of the three writes I and advances, and the value written is a number modulo 2^16. -/
theorem indexRegisterResults : Obligations.IndexRegisterResults := by
  intro s x nnn
  obtain ⟨t, haddI, hsum, haddPc, haddFrame⟩ := exec_setI_advance (i := .addI x) (s := s) rfl
  obtain ⟨u, hldF, hglyph, hldPc, hldFrame⟩ := exec_setI_advance (i := .ldF x) (s := s) rfl
  exact ⟨fun _ => ⟨decode_encode (i := .ldI nnn) rfl, decode_encode (i := .addI x) rfl, decode_encode (i := .ldF x) rfl⟩,
    rfl, ⟨t, haddI, hsum ▸ add_byteValue_toNat _ _, haddPc, haddFrame⟩,
    u, hldF, hglyph ▸ glyphAddr_toNat _, hldPc, hldFrame⟩

/-- Settles O39: a block store of the three digits. -/
theorem bcdStoresThreeDigits : Obligations.BcdStoresThreeDigits := by
  refine fun s x h => ⟨fun _ => decode_encode (i := .ldB x) rfl, fun hout => exec_of_faultCondition (if_pos hout),
    fun hin => ?_⟩
  have hlen : (storedBytes (.ldB x) s).length = 3 := bcdDigits_length _
  obtain ⟨t, he, hs⟩ := exec_storesAtI (i := .ldB x) (by simp [writesParts]) h (by omega)
  obtain ⟨hhundreds, htens, hones⟩ := bcdDigits_toNat (s.getV x)
  exact ⟨t, he, (congrArg BitVec.toNat (hs.inside 0 (by omega))).trans hhundreds,
    (congrArg BitVec.toNat (hs.inside 1 (by omega))).trans htens,
    (congrArg BitVec.toNat (hs.inside 2 (by omega))).trans hones, hs.outside, hs.pc, hs.frame⟩

/-- Settles O40: a block store of V0 to Vx. -/
theorem storeRegsCopiesRegisters : Obligations.StoreRegsCopiesRegisters := by
  refine fun s x h => ⟨fun _ => decode_encode (i := .storeRegs x) rfl, fun hout => exec_of_faultCondition (if_pos hout),
    fun hin => ?_⟩
  have hlen : (storedBytes (.storeRegs x) s).length = x.toNat + 1 := s.regsUpTo_length x
  obtain ⟨t, he, hs⟩ := exec_storesAtI (i := .storeRegs x) (by simp [writesParts]) h (by omega)
  refine ⟨t, he, fun k hk => ?_, fun a ha => hs.outside a (ha.imp_right fun hgt => ?_), hs.pc, hs.frame⟩
  · exact (read_of_exec_storeRegs h hin he hk).trans (by rw [BitVec.ofNat_toNat, BitVec.setWidth_eq])
  · rw [hlen]
    exact hgt

/-- Settles O41: the filled registers are those up to Vx, each from its byte. -/
theorem loadRegsCopiesMemory : Obligations.LoadRegsCopiesMemory := by
  refine fun s x => ⟨fun _ => decode_encode (i := .loadRegs x) rfl, fun hout => exec_of_faultCondition (if_pos hout),
    fun hin => ?_⟩
  have hc := completes_loadRegs x s
  exact ⟨_, exec_loadRegs_inside hin, fun k hk => (getV_fillRegs_succ s _ x k).trans (if_pos hk),
    fun k hk => hc.regs k (decide_eq_false (by omega)), hc.pc, hc.frame⟩

end Sys2Proof.Machine
end

section
/-! SUPPORT. The framebuffer instructions (spec/44_display.md): the clear, one draw of a sprite in the terms of the statements,
and a second draw after it. -/

namespace Sys2Proof.Machine

section Framebuffer

variable {s t u : State} {x y x' y' n : Nibble}

/-- Two framebuffers with the same pixels are the same. -/
theorem Display.ext_get {d e : Display} (h : ∀ r c, Display.get d r c = Display.get e r c) : d = e :=
  Vector.ext fun r hr => Vector.ext fun c hc => h ⟨r, hr⟩ ⟨c, hc⟩

/-! ### One draw (R212 to R216) -/

/-- The pixels that the laws of the engine find covered are those of the statements. -/
theorem spriteCovers_iff {r : Fin 32} {c : Fin 64} :
    spriteCovers s.mem (s.dataAddr 0) (s.getV y).toNat (s.getV x).toNat n.toNat r c = true ↔ SpriteCovers s x y n r c := by
  simp only [spriteCovers, rowCovers, decide_eq_true_eq, SpriteCovers, spriteBit, State.dataAddr, Nat.add_zero, Fin.ext_iff,
    wrapRow, wrapCol]
  constructor
  · rintro ⟨k, hk, hr, j, hj, hbit, hc⟩
    exact ⟨k, j, hk, hj, hbit, hr, hc⟩
  · rintro ⟨k, j, hk, hj, hbit, hr, hc⟩
    exact ⟨k, hk, hr, j, hj, hbit, hc⟩

/-- From `s` to `t`, the pixels that the sprite of DRW Vx, Vy, n covers are flipped, the others stay, and VF says whether a
covered pixel was 1. -/
structure DrawsSprite (x y n : Nibble) (s t : State) : Prop where
  flips : ∀ r c, SpriteCovers s x y n r c → Display.get t.disp r c = !Display.get s.disp r c
  keeps : ∀ r c, ¬ SpriteCovers s x y n r c → Display.get t.disp r c = Display.get s.disp r c
  collision : (∃ r c, SpriteCovers s x y n r c ∧ Display.get s.disp r c = true) → t.getV vf = 1#8
  noCollision : (∀ r c, SpriteCovers s x y n r c → Display.get s.disp r c = false) → t.getV vf = 0#8

theorem faultCondition_drw_eq_none_iff :
    faultCondition (.drw x y n) s = none ↔ n = 0#4 ∨ s.i.toNat + n.toNat - 1 < 4096 := by
  have hn : n = 0#4 ↔ n.toNat = 0 := BitVec.toNat_inj.symm
  rw [faultCondition, hn, ite_eq_right_iff]
  simp only [reduceCtorEq, imp_false]
  omega

/-- The framebuffer after the sprite of DRW Vx, Vy, n, and whether a pixel went from 1 to 0. -/
def drawn (x y n : Nibble) (s : State) : Display × Bool :=
  drawSprite s.mem (s.dataAddr 0) (s.getV y).toNat (s.getV x).toNat n.toNat (s.disp, false)

/-- Every pixel is XORed with the sprite (R212). -/
theorem get_drawn (r : Fin 32) (c : Fin 64) : Display.get (drawn x y n s).1 r c = (Display.get s.disp r c
    ^^ spriteCovers s.mem (s.dataAddr 0) (s.getV y).toNat (s.getV x).toNat n.toNat r c) :=
  (drawSprite_spec _ _ _ _ _ n.toNat (by omega)).1 r c

/-- A pixel goes from 1 to 0 when it is covered and was 1 (R212, R217). -/
theorem drawn_collides_iff :
    (drawn x y n s).2 = true ↔ ∃ r c, SpriteCovers s x y n r c ∧ Display.get s.disp r c = true := by
  rw [drawn, (drawSprite_spec _ _ _ _ _ n.toNat (by omega)).2, Bool.false_or, decide_eq_true_iff]
  simp only [spriteCovers_iff, and_comm]

/-- A draw that raises no fault writes the framebuffer and the flag of the drawn sprite. -/
theorem exec_drw_of_no_fault (hf : faultCondition (.drw x y n) s = none) : exec (.drw x y n) s
    = .next ((s.setDisp (drawn x y n s).1).setV vf (flagByte (drawn x y n s).2)).advance := by
  change s.withBlock n.toNat _ = _
  rcases State.withBlock_cases s n.toNat _ with ⟨hpos, hout, -⟩ | ⟨-, hb⟩
  · rw [faultCondition, if_pos (by omega)] at hf
    cases hf
  · exact hb

theorem drawsSprite_of_exec (hf : faultCondition (.drw x y n) s = none) (he : exec (.drw x y n) s = .next t) :
    DrawsSprite x y n s t := by
  cases (exec_drw_of_no_fault hf).symm.trans he
  refine ⟨fun r c hc => ?_, fun r c hc => ?_, fun hset => ?_, fun hclear => ?_⟩
  · simp [get_drawn, spriteCovers_iff.2 hc]
  · simp [get_drawn, Bool.eq_false_iff.2 (mt spriteCovers_iff.1 hc)]
  · simp [drawn_collides_iff.2 hset, flagByte]
  · have hnone : (drawn x y n s).2 = false := by
      rw [Bool.eq_false_iff, ne_eq, drawn_collides_iff]
      rintro ⟨r, c, hc, hset⟩
      simp [hclear r c hc] at hset
    simp [hnone, flagByte]

/-- A draw that raises no fault draws the sprite and completes. -/
theorem exec_drw_drawsSprite (hf : faultCondition (.drw x y n) s = none) :
    ∃ t, exec (.drw x y n) s = .next t ∧ DrawsSprite x y n s t ∧ Completes (.drw x y n) s t :=
  have he := exec_drw_of_no_fault hf
  ⟨_, he, drawsSprite_of_exec hf he, Completes.of_exec hf he⟩

/-- A sprite of no rows covers no pixel (R216). -/
theorem not_spriteCovers_zero (r : Fin 32) (c : Fin 64) : ¬ SpriteCovers s x y 0#4 r c :=
  fun ⟨_, _, hk, _⟩ => absurd hk (Nat.not_lt_zero _)

theorem DrawsSprite.of_no_rows (h : DrawsSprite x y 0#4 s t) : t.disp = s.disp ∧ t.getV vf = 0#8 :=
  ⟨Display.ext_get fun r c => h.keeps r c (not_spriteCovers_zero r c),
    h.noCollision fun r c hc => absurd hc (not_spriteCovers_zero r c)⟩

/-! ### A second draw (R215) -/

/-- A sprite is its bytes from I on and the values of its two coordinate registers. -/
theorem spriteCovers_congr (hmem : SamePart s t .mem) (hi : t.i = s.i) (hx : t.getV x' = s.getV x)
    (hy : t.getV y' = s.getV y) (r : Fin 32) (c : Fin 64) : SpriteCovers t x' y' n r c ↔ SpriteCovers s x y n r c := by
  have hread : ∀ a, Memory.read t.mem a = Memory.read s.mem a := hmem
  simp only [SpriteCovers, hread, hi, hx, hy]

section SameSprite

variable (hst : DrawsSprite x y n s t) (htu : DrawsSprite x' y' n t u)
  (hsame : ∀ r c, SpriteCovers t x' y' n r c ↔ SpriteCovers s x y n r c)
include hst htu hsame

/-- The second draw flips back what the first one flipped. -/
theorem DrawsSprite.get_twice (r : Fin 32) (c : Fin 64) : Display.get u.disp r c = Display.get s.disp r c := by
  by_cases hc : SpriteCovers s x y n r c
  · rw [htu.flips r c ((hsame r c).2 hc), hst.flips r c hc, Bool.not_not]
  · rw [htu.keeps r c (mt (hsame r c).1 hc), hst.keeps r c hc]

/-- On a clear area the first draw sets every pixel that it covers, so the second one collides in each. -/
theorem DrawsSprite.vf_twice (hclear : ∀ r c, SpriteCovers s x y n r c → Display.get s.disp r c = false)
    (hbit : ∃ r c, SpriteCovers s x y n r c) : u.getV vf = 1#8 := by
  obtain ⟨r, c, hc⟩ := hbit
  have hset : Display.get t.disp r c = true := by rw [hst.flips r c hc, hclear r c hc, Bool.not_false]
  exact htu.collision ⟨r, c, (hsame r c).2 hc, hset⟩

end SameSprite

end Framebuffer

/-! ### The statements of the family -/

/-- Settles O44: a draw faults by the table of R250, or draws the sprite and completes. -/
theorem drwXorsTheSprite : Obligations.DrwXorsTheSprite := by
  refine fun s x y n => ⟨fun _ => decode_encode (i := .drw x y n) rfl, fun hn hout => exec_of_faultCondition (if_pos ?_),
    fun hin => ?_⟩
  · exact ⟨Nat.pos_of_ne_zero (BitVec.toNat_ne.1 hn), hout⟩
  · obtain ⟨t, he, hdraw, hc⟩ := exec_drw_drawsSprite (x := x) (y := y) (faultCondition_drw_eq_none_iff.2 hin)
    refine ⟨t, he, hdraw.flips, hdraw.keeps, hdraw.collision, hdraw.noCollision, ?_,
      fun z hz => hc.regs z (beq_false_of_ne hz), hc.pc, hc.frame.mono (by simp [writesParts])⟩
    rintro rfl
    exact hdraw.of_no_rows

/-- Settles O45: the first draw leaves memory and I, so the second one draws the same sprite. -/
theorem drwTwiceRestores : Obligations.DrwTwiceRestores := by
  intro s t x y x' y' n hf he hx hy
  have hst : DrawsSprite x y n s t := drawsSprite_of_exec hf he
  have hframe : Keeps [.disp, .v, .pc] s t := (Completes.of_exec hf he).frame
  have hi : t.i = s.i := hframe .i (by decide)
  have hsame := spriteCovers_congr (n := n) (hframe .mem (by decide)) hi hx hy
  have hf' : faultCondition (.drw x' y' n) t = none := by
    rwa [faultCondition_drw_eq_none_iff, hi, ← faultCondition_drw_eq_none_iff (x := x) (y := y)]
  obtain ⟨u, hu, htu, -⟩ := exec_drw_drawsSprite hf'
  exact ⟨u, hu, hst.get_twice htu hsame, fun hclear => ⟨hst.noCollision hclear, hst.vf_twice htu hsame hclear⟩⟩

/-- Settles O43: the clear framebuffer is written, and the rest is the row of CLS. -/
theorem clsClearsEveryPixel : Obligations.ClsClearsEveryPixel :=
  fun s => ⟨fun _ => decode_encode (i := .cls) rfl, _, rfl, Display.get_clear, rfl,
    (keeps_setDisp s _).trans (keeps_advance _)⟩

end Sys2Proof.Machine
end

section
/-! SUPPORT. Keys and timers (spec/45_keys_timers.md): who writes a timer, the key tests by the key that Vx names, and the
wait for a key by the lowest one pressed. -/

namespace Sys2Proof.Machine

section KeysTimers

variable {i : Instr} {s t : State} {x : Nibble}

/-! ### The writers of the timers (R243) -/

theorem dt_mem_writesParts (h : .dt ∈ writesParts i) : ∃ x, i = .ldDtVx x := by
  cases i <;> simp [writesParts] at h ⊢

theorem st_mem_writesParts (h : .st ∈ writesParts i) : ∃ x, i = .ldStVx x := by
  cases i <;> simp [writesParts] at h ⊢

theorem keeps_loadProgram (bytes : List Byte) (s : State) : Keeps [.mem] s (loadProgram bytes s) := by
  by_cases hl : bytes.length ≤ 3584
  · rw [loadProgram_fits hl]
    exact keeps_setMem s _
  · rw [loadProgram_rejects (by omega)]
    exact Keeps.refl _ s

theorem keeps_setKey (index : Int) (pressed : Bool) (s : State) : Keeps [.key] s (setKey index pressed s) := by
  by_cases hi : 0 ≤ index ∧ index < 16
  · rw [setKey_inside index pressed s hi]
    exact keeps_withKey s _
  · rw [setKey_outside index pressed s (by omega)]
    exact Keeps.refl _ s

theorem keeps_writeFont (s : State) : Keeps [.mem] s (writeFont s) := by
  rw [writeFont_eq]
  exact keeps_setMem s _

/-- The host's other operations write memory and the key latch at most. -/
theorem cycle_or_tick_or_reset_or_keeps {op : HostOp} (h : hostOp op s = .next t) :
    (op = .cycle ∨ op = .tick ∨ op = .reset) ∨ Keeps [.mem, .key] s t := by
  cases op with
  | cycle | tick | reset => simp
  | writeFont =>
    obtain ⟨-, rfl⟩ := bootFont_eq_next h
    exact .inr ((keeps_writeFont s).mono (by simp))
  | loadProgram bytes =>
    cases h
    exact .inr ((keeps_loadProgram bytes s).mono (by simp))
  | setKey index pressed =>
    cases h
    exact .inr ((keeps_setKey index pressed s).mono (by simp))
  | read port =>
    cases h
    exact .inr (Keeps.refl _ s)

/-! ### The key tests (R230 to R232) -/

/-- A value up to 15 names a key, whose flag decides the skip. -/
theorem State.keySkip_of_key {k : Fin 16} {pressed : Bool} (hx : (s.getV x).toNat = k.val) (hk : s.key[k.val] = pressed)
    (want : Bool) : s.keySkip x want = .next (s.skipIf (pressed == want)) := by
  rcases State.keySkip_cases s x want with ⟨_, he⟩ | ⟨hout, -⟩ | ⟨hout, -⟩
  · simpa only [hx, hk] using he
  · omega
  · omega

theorem State.keySkip_of_fault (hx : 15 < (s.getV x).toNat) (hp : s.params.keyIndexOor = .fault) (want : Bool) :
    s.keySkip x want = raise .keyIndexOutOfRange s := by
  rcases State.keySkip_cases s x want with ⟨hin, -⟩ | ⟨-, -, he⟩ | ⟨-, hnoop, -⟩
  · omega
  · exact he
  · cases hp.symm.trans hnoop

theorem State.keySkip_of_noSkipNoop (hx : 15 < (s.getV x).toNat) (hp : s.params.keyIndexOor = .noSkipNoop)
    (want : Bool) : s.keySkip x want = .next s.advance := by
  rcases State.keySkip_cases s x want with ⟨hin, -⟩ | ⟨-, hfault, -⟩ | ⟨-, -, he⟩
  · omega
  · cases hp.symm.trans hfault
  · exact he

/-! ### The wait for a key (R235) -/

theorem State.lowestKey_eq_none (h : ∀ k : Fin 16, s.key[k.val] = false) : s.lowestKey = none := by
  cases hl : s.lowestKey with
  | none => rfl
  | some k =>
    obtain ⟨hk, hpressed, -⟩ := State.lowestKey_some hl
    exact absurd hpressed (Bool.eq_false_iff.1 (h ⟨k, hk⟩))

/-- A pressed key below which none is pressed is the lowest one: any other that were the lowest would lie below it or have it
below. -/
theorem State.lowestKey_eq_some {k : Fin 16} (hk : s.key[k.val] = true)
    (hbelow : ∀ j : Fin 16, j < k → s.key[j.val] = false) : s.lowestKey = some k.val := by
  cases hl : s.lowestKey with
  | none => simp [State.lowestKey_none hl k.val k.isLt] at hk
  | some j =>
    obtain ⟨hj, hpressed, hlow⟩ := State.lowestKey_some hl
    rcases Nat.lt_trichotomy j k.val with hjk | rfl | hkj
    · simp [hbelow ⟨j, hj⟩ hjk] at hpressed
    · rfl
    · simp [hlow k.val hkj] at hk

theorem exec_ldVxK_of_none (x : Nibble) (h : s.lowestKey = none) : exec (.ldVxK x) s = .next s := by
  change execLdVxK x s = _
  rw [execLdVxK, h]

theorem exec_ldVxK_of_some (x : Nibble) {k : Nat} (h : s.lowestKey = some k) :
    exec (.ldVxK x) s = .next (s.setV x (BitVec.ofNat 8 k)).advance := by
  change execLdVxK x s = _
  rw [execLdVxK, h]

end KeysTimers

/-! ### The statements of the family -/

/-- Settles O19: a changed timer is a written part, and what the host does besides a cycle, a tick and a reset keeps both. -/
theorem timersWrittenOnlyByTheirInstructions : Obligations.TimersWrittenOnlyByTheirInstructions := by
  refine ⟨fun i s t he => ⟨fun hdt => dt_mem_writesParts (mem_writesParts_of_exec he (by decide) hdt),
    fun hst => st_mem_writesParts (mem_writesParts_of_exec he (by decide) hst)⟩, fun op s t hop hne => ?_⟩
  rcases cycle_or_tick_or_reset_or_keeps hop with hthree | hkeeps
  · exact hthree
  · have hdt : t.dt = s.dt := hkeeps .dt (by decide)
    have hst : t.st = s.st := hkeeps .st (by decide)
    exact absurd hne (by simp [hdt, hst])

/-- Settles O46: SKP wants the flag of its key to be 1, SKNP to be 0, and without a key the parameter decides both. -/
theorem keySkips : Obligations.KeySkips :=
  fun _ x => ⟨fun _ => ⟨decode_encode (i := .skp x) rfl, decode_encode (i := .sknp x) rfl⟩,
    fun _ hx hk => ⟨State.keySkip_of_key hx hk true, State.keySkip_of_key hx hk false⟩,
    fun _ hx hk => ⟨State.keySkip_of_key hx hk true, State.keySkip_of_key hx hk false⟩,
    fun hx hp => ⟨State.keySkip_of_fault hx hp true, State.keySkip_of_fault hx hp false⟩,
    fun hx hp => ⟨State.keySkip_of_noSkipNoop hx hp true, State.keySkip_of_noSkipNoop hx hp false⟩⟩

/-- Settles O47: the scan ends without a key, or at the lowest one, whose index fits a byte. -/
theorem waitForKeyTakesTheLowest : Obligations.WaitForKeyTakesTheLowest :=
  fun s x => ⟨fun _ => decode_encode (i := .ldVxK x) rfl,
    fun hnone => exec_ldVxK_of_none x (State.lowestKey_eq_none hnone),
    fun _ hk hbelow => ⟨_, _, exec_ldVxK_of_some x (State.lowestKey_eq_some hk hbelow), writesOneReg_setV s x _,
      (BitVec.toNat_ofNat _ _).trans (Nat.mod_eq_of_lt (by omega))⟩⟩

/-- Settles O48: Fx07 writes Vx alone; the other two write their timer and pc. -/
theorem timerMoves : Obligations.TimerMoves :=
  fun s x => ⟨fun _ => ⟨decode_encode (i := .ldVxDt x) rfl, decode_encode (i := .ldDtVx x) rfl,
      decode_encode (i := .ldStVx x) rfl⟩,
    ⟨_, rfl, writesOneReg_setV s x _⟩, rfl, rfl⟩

end Sys2Proof.Machine
end

section
/-! SUPPORT. Faults and the host's operations (spec/60_exceptions.md): the fault latch under instructions and in a halted block,
what each operation of the host leaves, the finished run, and the frames that a schedule is made of. -/

namespace Sys2Proof.Machine

section Exceptions

variable {i : Instr} {s t : State} {k : FaultKind} {op : HostOp} {rest : List HostOp} {a : List Part}

/-! ### The fault latch (R250 to R253) -/

theorem fault_not_mem_writesParts (i : Instr) : .fault ∉ writesParts i := by
  cases i <;> simp [writesParts]

/-- An instruction that raises no fault leaves the latch, set or clear. -/
theorem Completes.fault (h : Completes i s t) : t.fault = s.fault :=
  h.frame .fault (fault_not_mem_writesParts i)

theorem cycle_of_halted (hs : s.fault = some k) : cycle s = .fault (.halted k) := by
  rw [cycle, hs]

theorem tick_of_halted (hs : s.fault = some k) : tick s = .fault (.halted k) := by
  rw [tick, hs]

/-- In a halted block no cycle latches a further fault, so only a reset changes the latch (R253). -/
theorem eq_reset_of_halted (hs : s.fault = some k) (h : hostOp op s = .next t) (hne : t.fault ≠ s.fault) :
    op = .reset := by
  by_contra hreset
  refine hne (keeps_of_hostOp (fun hcycle => ?_) hreset h .fault (by decide))
  subst hcycle
  cases (cycle_of_halted hs).symm.trans h

/-! ### What an operation of the host leaves -/

/-- An operation that a step takes off the schedule leaves the rest of it, and its own frame is the step's but for the
schedule. -/
theorem pending_and_keeps_of_step (hk : Keeps a { s with pending := rest } t) (ha : .pending ∉ a) :
    t.pending = rest ∧ Keeps (a ++ [.pending]) s t :=
  ⟨hk .pending ha, ((keeps_withPending s rest).trans hk).mono (by simp)⟩

/-- The block after a tick that it takes (R262). -/
def State.ticked (s : State) : State := (s.setDt (tickDown s.dt)).setSt (tickDown s.st)

theorem tick_of_running (hs : s.fault = none) : tick s = .next s.ticked := by
  rw [tick, hs]
  rfl

theorem keeps_ticked (s : State) : Keeps [.dt, .st] s s.ticked :=
  (keeps_setDt s _).trans (keeps_setSt _ _)

theorem key_of_cycle (h : cycle s = .next t) : t.key = s.key := by
  rcases cycle_eq_next h with ⟨k, rfl⟩ | ⟨-, he⟩
  · rfl
  · exact (keyLatchNeverWrittenByInstructions _ s t he).1

/-- Of the host's operations only a reset and a key write may change the key latch (R271, R290). -/
theorem reset_or_setKey_or_key_eq (h : hostOp op s = .next t) :
    op = .reset ∨ (∃ index pressed, op = .setKey index pressed) ∨ t.key = s.key := by
  cases op with
  | reset => exact .inl rfl
  | setKey index pressed => exact .inr (.inl ⟨index, pressed, rfl⟩)
  | cycle => exact .inr (.inr (key_of_cycle h))
  | writeFont =>
    obtain ⟨-, rfl⟩ := bootFont_eq_next h
    exact .inr (.inr (keeps_writeFont s .key (by decide)))
  | loadProgram bytes =>
    cases h
    exact .inr (.inr (keeps_loadProgram bytes s .key (by decide)))
  | tick =>
    rcases tick_cases s with ⟨k, -, ht⟩ | ⟨-, ht⟩ <;> cases ht.symm.trans h
    exact .inr (.inr rfl)
  | read port =>
    cases h
    exact .inr (.inr rfl)

/-- A write of key k sets its flag and leaves the 15 others (R271). -/
theorem setKey_key (k : Fin 16) (pressed : Bool) (s : State) : (setKey k.val pressed s).key = s.key.set k.val pressed := by
  rw [setKey_inside _ _ _ ⟨by omega, by omega⟩]
  rfl

theorem soundOutput_eq_true_iff : soundOutput s = true ↔ 0 < s.st.toNat := by
  rw [soundOutput, bne_iff_ne, Nat.pos_iff_ne_zero]
  exact BitVec.toNat_ne

/-! ### A finished run (R283) -/

theorem Finished.cycle (h : Finished s) : cycle s = .next s := by
  obtain ⟨hs, hpc, nnn, hjp, hself⟩ := h
  rw [cycle_of_fetch_inside hs hpc, hjp, (jpSetsPc s nnn).2, hself]

theorem fetchWord_of_keeps (hk : Keeps a s t) (hmem : .mem ∉ a) (hpc : .pc ∉ a) : t.fetchWord = s.fetchWord := by
  have hread : ∀ addr, Memory.read t.mem addr = Memory.read s.mem addr := hk .mem hmem
  have epc : t.pc = s.pc := hk .pc hpc
  simp only [State.fetchWord, hread, epc]

/-- A finished run is told by the latch, pc, the parameters and memory only. -/
theorem Finished.of_keeps (h : Finished s) (hk : Keeps a s t)
    (ha : .fault ∉ a ∧ .pc ∉ a ∧ .params ∉ a ∧ .mem ∉ a) : Finished t := by
  obtain ⟨hafault, hapc, haparams, hamem⟩ := ha
  have efault : t.fault = s.fault := hk .fault hafault
  have epc : t.pc = s.pc := hk .pc hapc
  have eparams : t.params = s.params := hk .params haparams
  unfold Finished
  rw [efault, epc, eparams, fetchWord_of_keeps hk hamem hapc]
  exact h

end Exceptions

/-! ### Frames of a schedule (R267) -/

/-- The key writes of a frame are neither cycles nor ticks. -/
theorem count_map_setKey {op : HostOp} (hop : ∀ index pressed, op ≠ .setKey index pressed) (keys : List (Int × Bool)) :
    (keys.map fun key => HostOp.setKey key.1 key.2).count op = 0 := by
  rw [List.count_eq_zero, List.mem_map]
  rintro ⟨key, -, hkey⟩
  exact hop _ _ hkey.symm

theorem count_cycle_frameOps (n : Nat) (keys : List (Int × Bool)) : (frameOps n keys).count .cycle = n := by
  simp [frameOps, count_map_setKey]

theorem count_tick_frameOps (n : Nat) (keys : List (Int × Bool)) : (frameOps n keys).count .tick = 1 := by
  simp [frameOps, count_map_setKey, List.count_replicate]

/-! ### The statements of the family -/

/-- Settles O12: an instruction latches the fault of its row or completes, and completing does not write the latch. -/
theorem faultsExactlyWhereTheTableSays : Obligations.FaultsExactlyWhereTheTableSays := by
  refine fun i s => ⟨fun k hk => exec_of_faultCondition hk, fun hnone => ?_⟩
  rcases exec_cases i s with ⟨k, hk, -⟩ | ⟨-, t, he, hc⟩
  · cases hnone.symm.trans hk
  · exact ⟨t, he, hc.fault⟩

/-- Settles O54: the jump to itself writes the pc that is there, and the host's operations write none of the parts that a
finished run is told by. -/
theorem finishedRunStaysFinished : Obligations.FinishedRunStaysFinished := by
  refine fun s h => ⟨h.cycle, fun op hop => ?_⟩
  have hs : s.fault = none := h.1
  rcases hop with rfl | rfl | ⟨index, pressed, rfl⟩ | ⟨port, rfl⟩
  · exact ⟨s, h.cycle, h⟩
  · exact ⟨_, tick_of_running hs, h.of_keeps (keeps_ticked s) (by decide)⟩
  · exact ⟨_, rfl, h.of_keeps (keeps_setKey index pressed s) (by decide)⟩
  · exact ⟨s, rfl, h⟩

/-- Settles O60, by induction on the frames: each has n cycles and one tick. -/
theorem admittedScheduleRunsNCyclesPerTick : Obligations.AdmittedScheduleRunsNCyclesPerTick := by
  rintro n _ ⟨frames, rfl⟩
  induction frames with
  | nil => rfl
  | cons keys frames ih =>
    rw [List.map_cons, List.flatten_cons, List.count_append, List.count_append, count_cycle_frameOps,
      count_tick_frameOps, ih, Nat.mul_add, Nat.mul_one]

/-- Settles O11. -/
theorem haltedBlockTakesNoCycleOrTick : Obligations.HaltedBlockTakesNoCycleOrTick :=
  fun s _ hs => ⟨fun h => (step_of_pending_nil h).trans (cycle_of_halted hs),
    fun rest h => (step_of_pending_cons h).trans (cycle_of_halted (s := { s with pending := rest }) hs),
    fun rest h => (step_of_pending_cons h).trans (tick_of_halted (s := { s with pending := rest }) hs),
    fun _ _ h => step_of_pending_cons h,
    fun _ h => ⟨_, step_of_pending_cons h, rfl⟩,
    fun _ _ hop hne => eq_reset_of_halted hs hop hne⟩

/-- Settles O49. -/
theorem tickCountsDown : Obligations.TickCountsDown :=
  fun s rest hs h => ⟨_, (step_of_pending_cons h).trans (tick_of_running (s := { s with pending := rest }) hs),
    tickDown_toNat s.dt, tickDown_toNat s.st, pending_and_keeps_of_step (keeps_ticked _) (by decide)⟩

/-- Settles O50: the write by its index, and the writers of the key latch. -/
theorem setKeyWritesOneFlag : Obligations.SetKeyWritesOneFlag := by
  refine fun s index pressed rest h => ⟨fun hout => ?_, fun k hk => ?_, fun op t hop hne => ?_⟩
  · exact (step_of_pending_cons h).trans (congrArg _ (setKey_outside index pressed _ hout))
  · subst hk
    have hkey := setKey_key k pressed { s with pending := rest }
    refine ⟨_, step_of_pending_cons h, ?_, fun j hj => ?_, pending_and_keeps_of_step (keeps_setKey _ _ _) (by decide)⟩
    · simp only [hkey, Vector.getElem_set_self]
    · simp only [hkey, Vector.getElem_set_ne k.isLt j.isLt (Fin.val_ne_of_ne hj.symm)]
  · rcases reset_or_setKey_or_key_eq hop with hreset | hset | hsame
    · exact .inl hreset
    · exact .inr hset
    · exact absurd hsame hne

/-- Settles O51: 3584 bytes are what fits above 0x200, and a fitting program is one block of writes. -/
theorem loadProgramCopiesOrRejects : Obligations.LoadProgramCopiesOrRejects := by
  refine fun s bytes rest hmem h => ⟨fun hlong => ?_, fun hfits => ?_⟩
  · have hlen : 3584 < bytes.length := by omega
    exact ⟨loadStatus_outOfBounds hlen, (step_of_pending_cons h).trans (congrArg _ (loadProgram_rejects hlen _))⟩
  · have hlen : bytes.length ≤ 3584 := by omega
    have hblock : 0x200 + bytes.length ≤ 4096 := by omega
    have hload := loadProgram_fits hlen { s with pending := rest }
    refine ⟨loadStatus_ok hlen, _, step_of_pending_cons h, fun k hk => ?_, fun addr haddr => ?_,
      pending_and_keeps_of_step (keeps_loadProgram bytes _) (by decide)⟩
    · rw [hload]
      exact Memory.read_writeBlock_inside hmem hblock hk
    · rw [hload]
      exact Memory.read_writeBlock_outside hmem hblock haddr

/-- Settles O55: a read is the step that keeps its state, and the sound output is the one observation that is computed. -/
theorem hostReadsChangeNothing : Obligations.HostReadsChangeNothing := by
  refine fun s port x rest h => ⟨step_of_pending_cons h, rfl, rfl, rfl, ?_, rfl, rfl⟩
  rw [observe, Observation.bit.injEq]
  exact soundOutput_eq_true_iff

end Sys2Proof.Machine
end

section
/-! SUPPORT. Reset and the boot order (spec/70_reset_and_hazards.md): the block after a reset step is the boot state of its own
parameters, schedule and draw count, the boot's font write is taken there, and load_program finds the rest of memory 0. -/

namespace Sys2Proof.Machine

section Boot

variable {s u : State} {p : Params} {ops rest : List HostOp} {d a : Nat}

/-! ### The block after a reset (R35, R290) -/

theorem resetBlock_idempotent (s : State) : resetBlock (resetBlock s) = resetBlock s := rfl

/-- A reset leaves of the block the model's own fields only. -/
theorem step_of_pending_reset (h : s.pending = .reset :: rest) : step s = .next (bootState s.params rest s.draws) :=
  step_of_pending_cons h

theorem read_bootState (a : Nat) : Memory.read (bootState p ops d).mem a = 0#8 := Memory.read_nil a

theorem getV_bootState (z : Nibble) : (bootState p ops d).getV z = 0#8 := Vector.getElem_replicate z.isLt

theorem stack_bootState (k : Fin 16) : (bootState p ops d).stack[k.val] = 0#16 := Vector.getElem_replicate k.isLt

theorem key_bootState (k : Fin 16) : (bootState p ops d).key[k.val] = false := Vector.getElem_replicate k.isLt

theorem canonical_bootState : MemoryCanonical (bootState p ops d) := Memory.wf_reset

/-! ### The boot's font write (R292) -/

/-- Right after a reset the font write is taken, whatever the schedule still holds. -/
theorem step_bootState_writeFont :
    step (bootState p (.writeFont :: rest) d) = .next (writeFont (bootState p rest d)) := by
  rw [step_of_pending_cons (op := .writeFont) (rest := rest) rfl]
  rcases bootFont_cases (bootState p rest d) with ⟨-, htaken⟩ | ⟨hne, -⟩
  · exact htaken
  · exact absurd rfl hne

theorem read_writeFont_bootState_of_none (h : p.fontImage = none) (a : Nat) :
    Memory.read (writeFont (bootState p ops d)).mem a = 0#8 := by
  have hnone : (bootState p ops d).params.fontImage = none := h
  rw [writeFont, hnone]
  exact read_bootState a

theorem read_writeFont_bootState_of_some {image : Vector Byte 80} (h : p.fontImage = some image) (ha : a < 80) :
    Memory.read (writeFont (bootState p ops d)).mem a = image[a] := by
  have hsome : (bootState p ops d).params.fontImage = some image := h
  have hlen : image.toList.length = 80 := Vector.length_toList
  have hread : Memory.read (Memory.writeBlock (bootState p ops d).mem 0 image.toList) (0 + a) = image.toList[a] :=
    Memory.read_writeBlock_inside canonical_bootState (by omega) (by omega)
  rw [Nat.zero_add] at hread
  rw [writeFont_mem, hsome]
  exact hread.trans (Vector.getElem_toList _)

theorem read_writeFont_bootState_above (ha : 80 ≤ a) : Memory.read (writeFont (bootState p ops d)).mem a = 0#8 :=
  (read_writeFont_above canonical_bootState ha).trans (read_bootState a)

/-! ### The boot order (R293) -/

theorem run_succ_of_step {n : Nat} (h : step s = .next u) :
    Host.Core.run Sys2Proof.core (n + 1) s = Host.Core.run Sys2Proof.core n u := by
  simp only [Host.Core.run, Host.Check.core_step, h]

/-- The first two steps of the boot order, of the three that are to be taken. -/
theorem run_bootOps {rom : List Byte} (h : s.pending = bootOps rom ++ rest) : Host.Core.run Sys2Proof.core 3 s
    = Host.Core.run Sys2Proof.core 1 (writeFont (bootState s.params (.loadProgram rom :: rest) s.draws)) := by
  rw [run_succ_of_step (step_of_pending_reset h)]
  exact run_succ_of_step step_bootState_writeFont

end Boot

/-! ### The statements of the family -/

/-- Settles O53: load_program (O51) after the font write, which has left the reset state but for the image. -/
theorem bootLoadsFontAndProgram : Obligations.BootLoadsFontAndProgram := by
  intro s rom rest hlen hpending
  have hfont := keeps_writeFont (bootState s.params (.loadProgram rom :: rest) s.draws)
  obtain ⟨-, hload⟩ :=
    loadProgramCopiesOrRejects _ rom rest (writeFont_wf canonical_bootState) (hfont .pending (by decide))
  obtain ⟨-, t, hstep, hrom, hother, hrest, hkeeps⟩ := hload (by omega)
  have hboot := hfont.trans hkeeps
  refine ⟨t, (run_bootOps hpending).trans (run_succ_of_step hstep), hboot .pc (by decide), hboot .fault (by decide),
    congrArg Fin.val (hboot .sp (by decide)), hrest, hrom, fun a habove => ?_, fun a h80 hbelow => ?_,
    fun hnone a ha => ?_, fun image himage a ha => ?_⟩
  · exact (hother a (.inr habove)).trans (read_writeFont_bootState_above (by omega))
  · exact (hother a (.inl hbelow)).trans (read_writeFont_bootState_above h80)
  · exact (hother a (by omega)).trans (read_writeFont_bootState_of_none hnone a)
  · exact (hother a (by omega)).trans (read_writeFont_bootState_of_some himage ha)

/-- Settles O52: the step leaves the boot state, whose fields are the reset values. -/
theorem resetGivesTheResetValues : Obligations.ResetGivesTheResetValues :=
  fun s _ h => ⟨resetBlock_idempotent s, _, step_of_pending_reset h, read_bootState, getV_bootState, rfl, rfl,
    stack_bootState, rfl, rfl, rfl, Display.get_clear, key_bootState, rfl⟩

end Sys2Proof.Machine
end
